-- ==== Sys2Proof/Word.lean ====
section
/-! DEFINITION. The value types of the machine: the 16-bit word, the 8-bit console character, the
number of a general register (00_scope.md R6, R9; 10_state.md R20, R21; 20_memory.md R51). -/

namespace Sys2Proof

/-- A data value, an address, an instruction word: `XLEN = ALEN = CELL = ILEN = 16` bits (R6). -/
abbrev Word := BitVec 16

/-- A console character, and one half of a cell: `CHARBITS = 8` bits (R6). -/
abbrev Byte := BitVec 8

/-- The number of a general register. All 8 values of the 3-bit field name a register (R21). -/
abbrev Reg := Fin 8

end Sys2Proof
end

