-- ==== Sys2Proof/Config.lean ====
section
/-! DEFINITION. What is fixed for the machine: the parameters of 00_scope.md R6 and the values the
model names for the three parameters the spec leaves open (R7). No instruction of this hardware has
an open result, so there is no free value here. -/

namespace Sys2Proof.Config

/-- `MEMSIZE`: the number of memory cells (R6, 20_memory.md R50). -/
def memSize : Nat := 65536

/-- `ENTRY`: the pc at reset (R6, 10_state.md R44). -/
def entry : Word := 0x3000

/-- What a cell that nothing has written reads as.
DESIGN CHOICE, unsafe for a claim about `State.reset` (log entry 3): the spec leaves `INIT_MEM` open
(R7, R44). A state may list any value for any cell, so a claim about every state meets every
`INIT_MEM`. -/
def unwrittenCell : Word := 0x0000

/-- What each general register of `State.reset` holds.
DESIGN CHOICE, unsafe for a claim about `State.reset` (log entry 2): the spec leaves `INIT_GPR` open
(R7, R44). -/
def resetGpr : Word := 0x0000

/-- What the console has offered in `State.reset`.
DESIGN CHOICE, unsafe for a claim about `State.reset` (log entry 4): the spec leaves `CONSOLE_IN`
open (R7, R44). -/
def resetConsoleIn : List Byte := []

end Sys2Proof.Config
end

