-- ==== Sys2Proof/Machine/State.lean ====
section
/-! DEFINITION. The state of the machine as plain data (10_state.md), the ways a step can have no
next state, and the state after reset (R44). -/

namespace Sys2Proof.Machine

open Sys2Proof

/-- The condition flags: exactly one of three mutually exclusive values (10_state.md R28, R29). -/
inductive Cond where
  | n
  | z
  | p
  deriving DecidableEq, Repr

/-- The run state (10_state.md R32). -/
inductive RunState where
  | running
  | halted
  deriving DecidableEq, Repr

/-- Memory: the 16-bit cells that do not read as `Config.unwrittenCell`, each with its address. The
unit is the 16-bit cell, for the machine has no byte addressing (20_memory.md R51, R57; DEDUCED,
safe, log entry 5). -/
abbrev Memory := List (Nat × Word)

/-- The canonical form of a memory: addresses strictly rising, each inside the 65,536-cell address
space (20_memory.md R50), no entry equal to what an unlisted address reads as. -/
abbrev Memory.wf (m : Memory) : Prop :=
  m.Pairwise (fun c d => c.1 < d.1) ∧ ∀ c ∈ m, c.1 < Config.memSize ∧ c.2 ≠ Config.unwrittenCell

/-- Everything the spec gives the machine (10_state.md section 1, R33 to R35, R38 to R41). -/
structure State where
  /-- `x[0]` to `x[7]` (R20). -/
  regs : Vector Word 8
  /-- The program counter (R24). -/
  pc : Word
  /-- The condition flags (R28). -/
  cond : Cond
  /-- The run state (R32). -/
  run : RunState
  /-- The cells of `memory_64k_16bit` (20_memory.md R50). -/
  mem : Memory
  /-- The level of the `reset` input, driven by the host (R38). -/
  resetLine : Bool
  /-- The characters the console has offered and the core has not taken, the next one first (R39). -/
  conIn : List Byte
  /-- The characters put since reset, the oldest first (R41). -/
  conOut : List Byte
  deriving DecidableEq, Repr

/-- Why a step has no next state. None of these is raised by the hardware, which raises no exception
(60_exceptions.md R200, R201): each names a situation in which the spec says that no step is taken or
that the step never ends. All are safe: nothing can be concluded of a next state. -/
inductive Fault where
  /-- `step`, while `reset` is asserted: "the core takes no step" (70_reset_and_hazards.md R230).
  Safe (log entry 6). -/
  | heldInReset
  /-- `step`, in HALTED: no further fetch or execute cycle (10_state.md R32). Safe (log entry 6). -/
  | halted
  /-- GETC, IN and TRAP with their vectors, when the console offers no character: the step is held
  and has not begun (10_state.md R40, 44_trap.md R176). Safe (log entry 6). -/
  | heldForInput
  /-- PUTS, PUTSP and TRAP with their vectors, when no cell of memory stops the string: the step never
  completes (44_trap.md R180). Safe (log entry 7). -/
  | stringNeverEnds
  deriving DecidableEq, Repr

/-- What the model gives no meaning. No step ever refuses (30_encoding.md R93). -/
inductive Refusal where
  /-- An arm of `exec` whose instruction has no meaning yet; no arm is. Safe. -/
  | notModelled (mnemonic : String)
  /-- `State.loadPort`: a write through the load port while `reset` is not asserted, which is not
  legal (10_state.md R38). Safe. -/
  | loadPortClosed
  /-- `signExtendUtility` with a width outside 1 to 16: no meaning (40_step_cycle.md R117;
  93_implementation_defined.md U4). Safe (log entry 20). -/
  | signExtendWidth (bitWidth : Nat)
  deriving DecidableEq, Repr

/-- The state after reset and before the first fetch, for given values of the three parameters the
spec leaves open: `INIT_GPR`, `INIT_MEM` with the image loads done, `CONSOLE_IN` (10_state.md R44;
00_scope.md R7). -/
def State.resetWith (initGpr : Vector Word 8) (initMem : Memory) (consoleIn : List Byte) : State where
  regs := initGpr
  pc := Config.entry
  cond := .z
  run := .running
  mem := initMem
  resetLine := false
  conIn := consoleIn
  conOut := []

/-- The state after reset (R44), the open parameters at the values Config names (DESIGN CHOICE, unsafe,
log entries 2, 3 and 4). -/
def State.reset : State :=
  State.resetWith (Vector.replicate 8 Config.resetGpr) [] Config.resetConsoleIn

end Sys2Proof.Machine
end

