-- ==== Sys2Proof/Machine/Ops.lean ====
section
/-! DEFINITION. The named operations over registers, memory and the console streams
(00_scope.md R10), the fetch and the advance (40_step_cycle.md R110), and the entry shared by all
traps (44_trap.md R170, 60_exceptions.md R207). This hardware takes no exception and has no return
from one (60_exceptions.md R200, R207), so there is no other entry. -/

namespace Sys2Proof.Machine

open Sys2Proof

/-! ### Memory -/

/-- The value stored for an address, the first entry with that address; `Config.unwrittenCell` where
none is listed. -/
def Memory.lookup (k : Nat) : Memory → Word
  | [] => Config.unwrittenCell
  | c :: m => if c.1 = k then c.2 else Memory.lookup k m

/-- A memory with an entry put before the first entry of a larger address. -/
def Memory.insert (k : Nat) (v : Word) : Memory → Memory
  | [] => [(k, v)]
  | c :: m => if k < c.1 then (k, v) :: c :: m else c :: Memory.insert k v m

/-- A memory without the entries of an address. -/
def Memory.erase (k : Nat) (m : Memory) : Memory := m.filter (fun c => c.1 ≠ k)

/-- `MemRead(addr, 1)` (20_memory.md R53): the whole cell at a 16-bit address. -/
def Memory.read (m : Memory) (a : Word) : Word := m.lookup a.toNat

/-- `MemWrite(addr, 1, v)` (20_memory.md R54), keeping the canonical form. -/
def Memory.write (m : Memory) (a v : Word) : Memory :=
  if v = Config.unwrittenCell then m.erase a.toNat
  else (m.erase a.toNat).insert a.toNat v

/-! ### Registers and memory of a state -/

/-- `x[r]` (10_state.md R20). -/
def State.getReg (r : Reg) (s : State) : Word := s.regs[r]

/-- `x[r] <- v` (10_state.md R20). -/
def State.setReg (r : Reg) (v : Word) (s : State) : State := { s with regs := s.regs.set r v }

/-- `pc <- target` (10_state.md R24). -/
def State.setPc (target : Word) (s : State) : State := { s with pc := target }

/-- `MemRead(a, 1)` in a state. -/
def State.readCell (a : Word) (s : State) : Word := s.mem.read a

/-- `MemWrite(a, 1, v)` in a state. -/
def State.writeCell (a v : Word) (s : State) : State := { s with mem := s.mem.write a v }

/-! ### Halves of a cell and characters -/

/-- `w[7:0]`. -/
def lowByte (w : Word) : Byte := w.extractLsb' 0 8

/-- `w[15:8]`. -/
def highByte (w : Word) : Byte := w.extractLsb' 8 8

/-- `zext_8(c)` (00_scope.md R10). -/
def zext8 (c : Byte) : Word := c.setWidth 16

/-! ### Console -/

/-- `ConsoleGet()` (10_state.md R40): the next character and the state without it; `none` where the
console offers no character. -/
def State.consoleGet (s : State) : Option (Byte × State) :=
  match s.conIn with
  | [] => none
  | c :: rest => some (c, { s with conIn := rest })

/-- `ConsolePut` of a list of characters, in order (10_state.md R41): always accepted (the spec's
decision D23, log entry 22). -/
def State.consolePut (cs : List Byte) (s : State) : State := { s with conOut := s.conOut ++ cs }

/-! ### The step's own operations -/

/-- The fetch: an ordinary read of the cell at the pc (40_step_cycle.md R111). -/
def State.fetch (s : State) : Word := s.readCell s.pc

/-- The advance: `pc <- pc + 1` modulo 65,536 (10_state.md R25). -/
def State.advance (s : State) : State := s.setPc (s.pc + 1)

/-- A state with a word stored where the next step fetches. -/
def State.placeFetch (w : Word) (s : State) : State := s.writeCell s.pc w

/-- `x[7] <- pc`: the link of JSR, JSRR and TRAP (10_state.md R23). -/
def State.link (s : State) : State := s.setReg 7 s.pc

/-- The entry of every trap: it saves the incremented pc into `x[7]` and nothing else, and control
stays in line (44_trap.md R170, 60_exceptions.md R207). -/
def State.trapEntry (s : State) : State := s.link

/-- `run <- HALTED` (44_trap.md R181). -/
def State.halt (s : State) : State := { s with run := .halted }

end Sys2Proof.Machine
end

