-- ==== Sys2Proof/Machine/Flags.lean ====
section
/-! DEFINITION. The condition flags: their one-hot bits (10_state.md R28), the flag of a value and
`setcc` (40_step_cycle.md R119), the test of BR (42_control.md R140). -/

namespace Sys2Proof.Machine

open Sys2Proof

/-- The one-hot bits of the flags, N in bit 2, Z in bit 1, P in bit 0 (R28; the spec's decision D3,
log entry 24). -/
def Cond.bits : Cond → BitVec 3
  | .n => 0b100
  | .z => 0b010
  | .p => 0b001

/-- The flag of a 16-bit value (R119). -/
def Cond.ofWord (v : Word) : Cond :=
  if v = 0x0000 then .z else if v.getLsbD 15 then .n else .p

/-- `setcc(r)`: the flag of the value that register `r` holds now (R119). -/
def State.setcc (r : Reg) (s : State) : State := { s with cond := Cond.ofWord (s.getReg r) }

/-- `x[r] <- v; setcc(r)`: how the seven flag-setting instructions end (R120). -/
def State.setRegCc (r : Reg) (v : Word) (s : State) : State := (s.setReg r v).setcc r

/-- The test of BR: the condition field AND the flag bits is nonzero (42_control.md R140). -/
def State.condHolds (nzp : BitVec 3) (s : State) : Bool := (nzp &&& s.cond.bits) ≠ 0

end Sys2Proof.Machine
end

