-- ==== Sys2Proof/Machine/Operands.lean ====
section
/-! DEFINITION. Operand forms and addressing modes (30_encoding.md R85, R86; 43_load_store.md R157)
and the block `sign_extend_utility` (40_step_cycle.md R116 to R118). In all of them the state's pc is
the incremented pc (R111). -/

namespace Sys2Proof.Machine

open Sys2Proof

/-- `sext_N(v)` for an `N`-bit field (40_step_cycle.md R116). -/
def sext {n : Nat} (v : BitVec n) : Word := v.signExtend 16

/-- The literal formula of `sign_extend_utility`, for a 16-bit value that may have ones above the
field: ones from bit `bitWidth` up where bit `bitWidth - 1` is 1, else the value unchanged (R117). -/
def signExtendFormula (value : Word) (bitWidth : Nat) : Word :=
  if value.getLsbD (bitWidth - 1) then value ||| (0xFFFF#16 <<< bitWidth) else value

/-- The block `sign_extend_utility`: the formula for widths 1 to 16, refused outside (R117;
93_implementation_defined.md U4; log entry 20). -/
def signExtendUtility (value : Word) (bitWidth : Nat) : Except Refusal Word :=
  if 1 ≤ bitWidth ∧ bitWidth ≤ 16 then .ok (signExtendFormula value bitWidth)
  else .error (.signExtendWidth bitWidth)

/-- The effective address of LD, ST, LEA and of the pointer cell of LDI and STI: the incremented pc
plus `sext_9` (R157). -/
def eaPcRel (pcoffset9 : BitVec 9) (s : State) : Word := s.pc + sext pcoffset9

/-- The effective address of LDI and STI: the pointer cell's value (R157). -/
def eaIndirect (pcoffset9 : BitVec 9) (s : State) : Word := s.readCell (eaPcRel pcoffset9 s)

/-- The effective address of LDR and STR: the base register plus `sext_6` (R157). -/
def eaBase (base : Reg) (offset6 : BitVec 6) (s : State) : Word := s.getReg base + sext offset6

/-- The target of a taken BR (42_control.md R140). -/
def branchTarget (pcoffset9 : BitVec 9) (s : State) : Word := s.pc + sext pcoffset9

/-- The target of JSR (42_control.md R143). -/
def jsrTarget (pcoffset11 : BitVec 11) (s : State) : Word := s.pc + sext pcoffset11

end Sys2Proof.Machine
end

