-- ==== Sys2Proof/Machine/Control.lean ====
section
/-! DEFINITION. BR, JMP, JSR, JSRR and the rows RET and NOP (42_control.md). The state's pc is the
incremented pc. -/

namespace Sys2Proof.Machine

open Sys2Proof

/-- BR (R140). -/
def execBr (nzp : BitVec 3) (pcoffset9 : BitVec 9) (s : State) : Host.Outcome State Fault Refusal :=
  .next (if s.condHolds nzp then s.setPc (branchTarget pcoffset9 s) else s)

/-- JMP (R141). -/
def execJmp (base : Reg) (s : State) : Host.Outcome State Fault Refusal :=
  .next (s.setPc (s.getReg base))

/-- RET: `pc <- x[7]` and nothing else (R142). -/
def execRet (s : State) : Host.Outcome State Fault Refusal :=
  .next (s.setPc (s.getReg 7))

/-- JSR: `x[7] <- pc`, then the jump from the same incremented pc (R143). -/
def execJsr (pcoffset11 : BitVec 11) (s : State) : Host.Outcome State Fault Refusal :=
  let linked := s.link
  .next (linked.setPc (jsrTarget pcoffset11 linked))

/-- JSRR: `x[7] <- pc`, then the base is read, AFTER that write, so JSRR R7 falls through (R144;
the spec's decision D8, log entry 10). -/
def execJsrr (base : Reg) (s : State) : Host.Outcome State Fault Refusal :=
  let linked := s.link
  .next (linked.setPc (linked.getReg base))

/-- NOP: BR with an empty condition field, which never branches, whatever the offset
(30_encoding.md R96). -/
def execNop (_pcoffset9 : BitVec 9) (s : State) : Host.Outcome State Fault Refusal :=
  .next s

end Sys2Proof.Machine
end

