-- ==== Sys2Proof/Machine/LoadStore.lean ====
section
/-! DEFINITION. LD, LDI, LDR, LEA, ST, STI, STR (43_load_store.md). The state's pc is the incremented
pc; a whole cell moves to or from a whole register (R157). Loads set the flags, stores do not. -/

namespace Sys2Proof.Machine

open Sys2Proof

/-- LD (R150). -/
def execLd (dr : Reg) (pcoffset9 : BitVec 9) (s : State) : Host.Outcome State Fault Refusal :=
  .next (s.setRegCc dr (s.readCell (eaPcRel pcoffset9 s)))

/-- LDI: the pointer read, then the data read (R151). -/
def execLdi (dr : Reg) (pcoffset9 : BitVec 9) (s : State) : Host.Outcome State Fault Refusal :=
  .next (s.setRegCc dr (s.readCell (eaIndirect pcoffset9 s)))

/-- LDR (R152). -/
def execLdr (dr base : Reg) (offset6 : BitVec 6) (s : State) : Host.Outcome State Fault Refusal :=
  .next (s.setRegCc dr (s.readCell (eaBase base offset6 s)))

/-- LEA: the address itself; memory is not accessed; the flags are set (R153). -/
def execLea (dr : Reg) (pcoffset9 : BitVec 9) (s : State) : Host.Outcome State Fault Refusal :=
  .next (s.setRegCc dr (eaPcRel pcoffset9 s))

/-- ST (R154). -/
def execSt (sr : Reg) (pcoffset9 : BitVec 9) (s : State) : Host.Outcome State Fault Refusal :=
  .next (s.writeCell (eaPcRel pcoffset9 s) (s.getReg sr))

/-- STI: the pointer read, then the data write (R155). -/
def execSti (sr : Reg) (pcoffset9 : BitVec 9) (s : State) : Host.Outcome State Fault Refusal :=
  .next (s.writeCell (eaIndirect pcoffset9 s) (s.getReg sr))

/-- STR (R156). -/
def execStr (sr base : Reg) (offset6 : BitVec 6) (s : State) : Host.Outcome State Fault Refusal :=
  .next (s.writeCell (eaBase base offset6 s) (s.getReg sr))

end Sys2Proof.Machine
end

