-- ==== Sys2Proof/Machine/Operate.lean ====
section
/-! DEFINITION. ADD, AND, NOT (41_operate.md). The state's pc is the incremented pc; both sources are
read before the destination is written. -/

namespace Sys2Proof.Machine

open Sys2Proof

/-- ADD, register form: 16-bit modular sum (R130, R135). -/
def execAddReg (dr sr1 sr2 : Reg) (s : State) : Host.Outcome State Fault Refusal :=
  .next (s.setRegCc dr (s.getReg sr1 + s.getReg sr2))

/-- ADD, immediate form (R131). -/
def execAddImm (dr sr1 : Reg) (imm5 : BitVec 5) (s : State) : Host.Outcome State Fault Refusal :=
  .next (s.setRegCc dr (s.getReg sr1 + sext imm5))

/-- AND, register form (R132). -/
def execAndReg (dr sr1 sr2 : Reg) (s : State) : Host.Outcome State Fault Refusal :=
  .next (s.setRegCc dr (s.getReg sr1 &&& s.getReg sr2))

/-- AND, immediate form: the immediate is sign-extended first (R133). -/
def execAndImm (dr sr1 : Reg) (imm5 : BitVec 5) (s : State) : Host.Outcome State Fault Refusal :=
  .next (s.setRegCc dr (s.getReg sr1 &&& sext imm5))

/-- NOT (R134). -/
def execNot (dr sr : Reg) (s : State) : Host.Outcome State Fault Refusal :=
  .next (s.setRegCc dr (~~~ s.getReg sr))

end Sys2Proof.Machine
end

