-- ==== Sys2Proof/Machine/Reserved.lean ====
section
/-! DEFINITION. The two reserved opcodes, each with an arm of its own (45_reserved.md,
40_step_cycle.md R112). Fetch and advance only: the source's stated policy (R192; the spec's decision
D2, log entry 15). -/

namespace Sys2Proof.Machine

open Sys2Proof

/-- Reserved opcode 1000: nothing (R190). -/
def execRes1000 (s : State) : Host.Outcome State Fault Refusal := .next s

/-- Reserved opcode 1101: nothing (R191). -/
def execRes1101 (s : State) : Host.Outcome State Fault Refusal := .next s

end Sys2Proof.Machine
end

