-- ==== Sys2Proof/Syntax.lean ====
section
/-! DEFINITION. The instructions, one constructor per row of spec/opcode_table.json. Fields are those
of 30_encoding.md R82; the bits no field covers (R84) are no part of an instruction. -/

namespace Sys2Proof

/-- One instruction. The rows that refine another row (`sub_case_of`, `alias_of` in the table) are
constructors too; `Instr.canonical` (Decode.lean) says which constructor the decoder answers
(log entry 8). -/
inductive Instr where
  /-- ADD, register form (41_operate.md R130). -/
  | addReg (dr sr1 sr2 : Reg)
  /-- ADD, immediate form (R131). -/
  | addImm (dr sr1 : Reg) (imm5 : BitVec 5)
  /-- AND, register form (R132). -/
  | andReg (dr sr1 sr2 : Reg)
  /-- AND, immediate form (R133). -/
  | andImm (dr sr1 : Reg) (imm5 : BitVec 5)
  /-- NOT (R134). -/
  | not (dr sr : Reg)
  /-- BR: `nzp` is `instr[11:9]`, N in bit 2, Z in bit 1, P in bit 0 (42_control.md R140). -/
  | br (nzp : BitVec 3) (pcoffset9 : BitVec 9)
  /-- JMP (R141). -/
  | jmp (base : Reg)
  /-- JSR (R143). -/
  | jsr (pcoffset11 : BitVec 11)
  /-- JSRR (R144). -/
  | jsrr (base : Reg)
  /-- LD (43_load_store.md R150). -/
  | ld (dr : Reg) (pcoffset9 : BitVec 9)
  /-- LDI (R151). -/
  | ldi (dr : Reg) (pcoffset9 : BitVec 9)
  /-- LDR (R152). -/
  | ldr (dr base : Reg) (offset6 : BitVec 6)
  /-- LEA (R153). -/
  | lea (dr : Reg) (pcoffset9 : BitVec 9)
  /-- ST (R154). -/
  | st (sr : Reg) (pcoffset9 : BitVec 9)
  /-- STI (R155). -/
  | sti (sr : Reg) (pcoffset9 : BitVec 9)
  /-- STR (R156). -/
  | str (sr base : Reg) (offset6 : BitVec 6)
  /-- TRAP with any vector, as the programmer may write it (44_trap.md R170). -/
  | trap (trapvect8 : BitVec 8)
  /-- The reserved opcode 1000 (45_reserved.md R190). -/
  | res1000
  /-- The reserved opcode 1101 (R191). -/
  | res1101
  /-- GETC, TRAP x20 (44_trap.md R173). -/
  | getc
  /-- OUT, TRAP x21 (R174). -/
  | out
  /-- PUTS, TRAP x22 (R177). -/
  | puts
  /-- IN, TRAP x23 (R178). -/
  | inEcho
  /-- PUTSP, TRAP x24 (R179). -/
  | putsp
  /-- HALT, TRAP x25 (R181). -/
  | halt
  /-- TRAP with a vector that selects no routine (R183). -/
  | trapUndefined (trapvect8 : BitVec 8)
  /-- RET, which is JMP R7 (42_control.md R142). -/
  | ret
  /-- NOP, which is BR with an empty condition field (30_encoding.md R96, R101). -/
  | nop (pcoffset9 : BitVec 9)
  deriving DecidableEq, Repr

end Sys2Proof
end

