-- ==== Sys2Proof/WellFormed.lean ====
section
/-! DEFINITION. Which instructions are well formed. Every operand is exactly as wide as its field, so
the fields need no check; the one check is that an undefined vector is undefined. -/

namespace Sys2Proof

/-- The vectors that select no routine: `0x00` to `0x1F` and `0x26` to `0xFF` (44_trap.md R183). -/
def vectorUndefined (v : BitVec 8) : Bool :=
  v.toNat < 0x20 || 0x25 < v.toNat

/-- A well-formed instruction: `trapUndefined` carries an undefined vector (44_trap.md R183); every
other instruction is well formed with every operand (30_encoding.md R93). -/
def Instr.WellFormed : Instr → Bool
  | .trapUndefined v => vectorUndefined v
  | .addReg .. | .addImm .. | .andReg .. | .andImm .. | .not .. | .br .. | .jmp .. | .jsr ..
  | .jsrr .. | .ld .. | .ldi .. | .ldr .. | .lea .. | .st .. | .sti .. | .str .. | .trap ..
  | .res1000 | .res1101 | .getc | .out | .puts | .inEcho | .putsp | .halt | .ret | .nop .. => true

end Sys2Proof
end

