-- ==== Sys2Proof/Decode.lean ====
section
/-! DEFINITION. From a 16-bit cell to an instruction and back: the opcode map (30_encoding.md R92),
the trap vector map (R94), the fields (R83), the decoder, which is total (R93), and the encoder. -/

namespace Sys2Proof

/-- The sixteen operations the opcode selects; `jsr` is JSR and JSRR, told apart by `instr[11]`. -/
inductive Opcode where
  | br | add | ld | st | jsr | and | ldr | str | res1000 | not | ldi | sti | jmp | res1101 | lea | trap
  deriving DecidableEq, Repr

/-- The opcode map, in the order of the opcode's number: the ONE place where the numbers stand
(R92; 92_eei_decisions.md D1). Only ADD's number is the source's; the spec takes the others from
general knowledge of the LC-3 (UNVERIFIED, unsafe, log entry 1). -/
def opcodeTable : Vector Opcode 16 :=
  #v[.br, .add, .ld, .st, .jsr, .and, .ldr, .str, .res1000, .not, .ldi, .sti, .jmp, .res1101, .lea, .trap]

/-- The operation an opcode value selects: every value selects one (R93). -/
def Opcode.ofBits (b : BitVec 4) : Opcode := opcodeTable[b.toFin]

/-- The number of an operation, read from the same table. -/
def Opcode.bits (o : Opcode) : BitVec 4 := BitVec.ofNat 4 (opcodeTable.toList.idxOf o)

/-- The six routines of `trap_dispatcher` (44_trap.md). -/
inductive TrapRoutine where
  | getc | out | puts | inEcho | putsp | halt
  deriving DecidableEq, Repr

/-- The trap vector map (R94): 250 of the 256 vectors select no routine. -/
def TrapRoutine.ofVector (v : BitVec 8) : Option TrapRoutine :=
  match v.toNat with
  | 0x20 => some .getc
  | 0x21 => some .out
  | 0x22 => some .puts
  | 0x23 => some .inEcho
  | 0x24 => some .putsp
  | 0x25 => some .halt
  | _ => none

/-- The vector of a routine (R94). -/
def TrapRoutine.vector : TrapRoutine → BitVec 8
  | .getc => 0x20
  | .out => 0x21
  | .puts => 0x22
  | .inEcho => 0x23
  | .putsp => 0x24
  | .halt => 0x25

/-- The `len`-bit field of a word whose lowest bit is bit `lo`: shift and mask (R83). -/
def field (lo len : Nat) (w : Word) : BitVec len := w.extractLsb' lo len

/-- A register field: three bits, each value a register (R83; 10_state.md R21). -/
def fieldReg (lo : Nat) (w : Word) : Reg := (field lo 3 w).toFin

/-- First level of decoding: one of the 19 primary rows of the opcode table (R92, R86). -/
def decodePrimary (w : Word) : Instr :=
  match Opcode.ofBits (field 12 4 w) with
  | .br => .br (field 9 3 w) (field 0 9 w)
  | .add =>
    if field 5 1 w = 1#1 then .addImm (fieldReg 9 w) (fieldReg 6 w) (field 0 5 w)
    else .addReg (fieldReg 9 w) (fieldReg 6 w) (fieldReg 0 w)
  | .ld => .ld (fieldReg 9 w) (field 0 9 w)
  | .st => .st (fieldReg 9 w) (field 0 9 w)
  | .jsr => if field 11 1 w = 1#1 then .jsr (field 0 11 w) else .jsrr (fieldReg 6 w)
  | .and =>
    if field 5 1 w = 1#1 then .andImm (fieldReg 9 w) (fieldReg 6 w) (field 0 5 w)
    else .andReg (fieldReg 9 w) (fieldReg 6 w) (fieldReg 0 w)
  | .ldr => .ldr (fieldReg 9 w) (fieldReg 6 w) (field 0 6 w)
  | .str => .str (fieldReg 9 w) (fieldReg 6 w) (field 0 6 w)
  | .res1000 => .res1000
  | .not => .not (fieldReg 9 w) (fieldReg 6 w)
  | .ldi => .ldi (fieldReg 9 w) (field 0 9 w)
  | .sti => .sti (fieldReg 9 w) (field 0 9 w)
  | .jmp => .jmp (fieldReg 6 w)
  | .res1101 => .res1101
  | .lea => .lea (fieldReg 9 w) (field 0 9 w)
  | .trap => .trap (field 0 8 w)

/-- The instruction of the most specific row for a TRAP word: second level of decoding (R94). -/
def canonicalTrap (v : BitVec 8) : Instr :=
  match TrapRoutine.ofVector v with
  | some .getc => .getc
  | some .out => .out
  | some .puts => .puts
  | some .inEcho => .inEcho
  | some .putsp => .putsp
  | some .halt => .halt
  | none => .trapUndefined v

/-- The instruction of the most specific row of the table that has the same words: a TRAP by its
vector (R94), JMP R7 as RET (42_control.md R142), BR with an empty condition field as NOP (R96,
R101). DESIGN CHOICE, safe (log entry 8): the hardware cannot tell them apart (R101). -/
def Instr.canonical : Instr → Instr
  | .trap v => canonicalTrap v
  | .jmp base => if base = 7 then .ret else .jmp base
  | .br nzp off => if nzp = 0 then .nop off else .br nzp off
  | .addReg dr sr1 sr2 => .addReg dr sr1 sr2
  | .addImm dr sr1 imm5 => .addImm dr sr1 imm5
  | .andReg dr sr1 sr2 => .andReg dr sr1 sr2
  | .andImm dr sr1 imm5 => .andImm dr sr1 imm5
  | .not dr sr => .not dr sr
  | .jsr off => .jsr off
  | .jsrr base => .jsrr base
  | .ld dr off => .ld dr off
  | .ldi dr off => .ldi dr off
  | .ldr dr base off => .ldr dr base off
  | .lea dr off => .lea dr off
  | .st sr off => .st sr off
  | .sti sr off => .sti sr off
  | .str sr base off => .str sr base off
  | .res1000 => .res1000
  | .res1101 => .res1101
  | .getc => .getc
  | .out => .out
  | .puts => .puts
  | .inEcho => .inEcho
  | .putsp => .putsp
  | .halt => .halt
  | .trapUndefined v => .trapUndefined v
  | .ret => .ret
  | .nop off => .nop off

/-- The decoder. Total: every one of the 65,536 words is an instruction (R93), so it rejects nothing.
The bits of R84 are not looked at. -/
def decode (w : Word) : Instr := (decodePrimary w).canonical

/-- A field put into a word with its lowest bit at bit `lo`; the inverse of `field` (R83). -/
def place {len : Nat} (lo : Nat) (v : BitVec len) : Word := v.setWidth 16 <<< lo

/-- A register field put into a word (R83). -/
def placeReg (lo : Nat) (r : Reg) : Word := place lo (BitVec.ofFin r : BitVec 3)

/-- Format `OPR` (R82); the ignored `instr[4:3]` are written 0 (R84). -/
def encodeOpr (o : Opcode) (dr sr1 sr2 : Reg) : Word :=
  place 12 o.bits ||| placeReg 9 dr ||| placeReg 6 sr1 ||| place 5 0#1 ||| placeReg 0 sr2

/-- Format `OPI` (R82). -/
def encodeOpi (o : Opcode) (dr sr1 : Reg) (imm5 : BitVec 5) : Word :=
  place 12 o.bits ||| placeReg 9 dr ||| placeReg 6 sr1 ||| place 5 1#1 ||| place 0 imm5

/-- Format `NOT` (R82); the ignored `instr[5:0]` are written 1 (R84). -/
def encodeNot (dr sr : Reg) : Word :=
  place 12 Opcode.not.bits ||| placeReg 9 dr ||| placeReg 6 sr ||| place 0 0b111111#6

/-- Format `BR` (R82). -/
def encodeBr (nzp : BitVec 3) (off : BitVec 9) : Word :=
  place 12 Opcode.br.bits ||| place 9 nzp ||| place 0 off

/-- Format `JMP` (R82); the ignored bits are written 0 (R84). -/
def encodeJmp (base : Reg) : Word := place 12 Opcode.jmp.bits ||| placeReg 6 base

/-- Format `JSR` (R82). -/
def encodeJsr (off : BitVec 11) : Word := place 12 Opcode.jsr.bits ||| place 11 1#1 ||| place 0 off

/-- Format `JSRR` (R82); the ignored bits are written 0 (R84). -/
def encodeJsrr (base : Reg) : Word :=
  place 12 Opcode.jsr.bits ||| place 11 0#1 ||| placeReg 6 base

/-- Format `PCREL` (R82). -/
def encodePcrel (o : Opcode) (r : Reg) (off : BitVec 9) : Word :=
  place 12 o.bits ||| placeReg 9 r ||| place 0 off

/-- Format `BASEOFF` (R82). -/
def encodeBaseoff (o : Opcode) (r base : Reg) (off : BitVec 6) : Word :=
  place 12 o.bits ||| placeReg 9 r ||| placeReg 6 base ||| place 0 off

/-- Format `TRAP` (R82); the ignored `instr[11:8]` are written 0 (R84). -/
def encodeTrap (v : BitVec 8) : Word := place 12 Opcode.trap.bits ||| place 0 v

/-- Format `RSVD` (R82); the ignored bits are written 0 (R84). -/
def encodeRsvd (o : Opcode) : Word := place 12 o.bits

/-- The word of an instruction, each format from R82 and the notation table of R100. The value
written to the ignored bits is the conventional one (R84; PRESUMED by the spec's K4, safe, log
entry 9). -/
def encode : Instr → Word
  | .addReg dr sr1 sr2 => encodeOpr .add dr sr1 sr2
  | .addImm dr sr1 imm5 => encodeOpi .add dr sr1 imm5
  | .andReg dr sr1 sr2 => encodeOpr .and dr sr1 sr2
  | .andImm dr sr1 imm5 => encodeOpi .and dr sr1 imm5
  | .not dr sr => encodeNot dr sr
  | .br nzp off => encodeBr nzp off
  | .jmp base => encodeJmp base
  | .jsr off => encodeJsr off
  | .jsrr base => encodeJsrr base
  | .ld dr off => encodePcrel .ld dr off
  | .ldi dr off => encodePcrel .ldi dr off
  | .ldr dr base off => encodeBaseoff .ldr dr base off
  | .lea dr off => encodePcrel .lea dr off
  | .st sr off => encodePcrel .st sr off
  | .sti sr off => encodePcrel .sti sr off
  | .str sr base off => encodeBaseoff .str sr base off
  | .trap v => encodeTrap v
  | .res1000 => encodeRsvd .res1000
  | .res1101 => encodeRsvd .res1101
  | .getc => encodeTrap TrapRoutine.getc.vector
  | .out => encodeTrap TrapRoutine.out.vector
  | .puts => encodeTrap TrapRoutine.puts.vector
  | .inEcho => encodeTrap TrapRoutine.inEcho.vector
  | .putsp => encodeTrap TrapRoutine.putsp.vector
  | .halt => encodeTrap TrapRoutine.halt.vector
  | .trapUndefined v => encodeTrap v
  | .ret => encodeJmp 7
  | .nop off => encodeBr 0 off

/-- The word whose low `nbits` bits are those of `w` and whose other bits are 0. -/
def tableWord (nbits w : Nat) : Word := BitVec.ofNat 16 (w % 2 ^ nbits)

/-- What the decoder reads from a row of spec/opcode_table.json: one cell (R80), so nothing is read
from more than 16 bits (DESIGN CHOICE, safe, log entry 8). -/
def decodeTableWord (nbits w : Nat) : Option Instr :=
  if nbits ≤ 16 then some (decode (tableWord nbits w)) else none

end Sys2Proof
end

