-- ==== Sys2Proof/Machine/Trap.lean ====
section
/-! DEFINITION. TRAP and the routines of `trap_dispatcher` (44_trap.md). The state's pc is the
incremented pc; every TRAP writes `x[7]` first (R170) and none touches `cond` (R172). A routine takes
the state after that write. -/

namespace Sys2Proof.Machine

open Sys2Proof

/-! ### The strings of PUTS and PUTSP -/

/-- PUTS stops on a whole cell of zero (R177). -/
def putsStops (w : Word) : Bool := w = 0x0000

/-- PUTS puts a cell's low byte; for a cell above `0x00FF` that is the spec's decision D10
(log entry 11). -/
def putsChars (w : Word) : List Byte := [lowByte w]

/-- PUTSP stops on a zero low byte, whatever the high byte (R179). -/
def putspStops (w : Word) : Bool := lowByte w = 0x00

/-- PUTSP puts the low byte, then the high byte if nonzero (R179). -/
def putspChars (w : Word) : List Byte :=
  if highByte w = 0x00 then [lowByte w] else [lowByte w, highByte w]

/-- The loop of a string routine, at most `reads` cells long: the characters of the cells from
address `a` on, up to the first cell that stops; `none` if none of the `reads` cells does. The
running address wraps (R180). -/
def stringFrom (stops : Word → Bool) (chars : Word → List Byte) (m : Memory) :
    Nat → Word → Option (List Byte)
  | 0, _ => none
  | reads + 1, a =>
    if stops (m.read a) then some []
    else (stringFrom stops chars m reads (a + 1)).map (chars (m.read a) ++ ·)

/-- A string routine: the characters from the cell `x[0]` names are put in order. If none of the
65,536 cells stops, the routine never ends and the step has no next state (R180; the spec's decision
D9, log entry 7). -/
def stringRoutine (stops : Word → Bool) (chars : Word → List Byte) (s : State) :
    Host.Outcome State Fault Refusal :=
  match stringFrom stops chars s.mem Config.memSize (s.getReg 0) with
  | some cs => .next (s.consolePut cs)
  | none => .fault .stringNeverEnds

/-! ### The routines, after the entry -/

/-- `x[0] <- zext_8(ConsoleGet())`, with an echo of the character or without. With no character the
step is held: it has not begun (R173, R176, R178; the spec's decisions D11 to D13, log entries 6, 12
and 13). -/
def inputRoutine (echo : Bool) (s : State) : Host.Outcome State Fault Refusal :=
  match s.consoleGet with
  | none => .fault .heldForInput
  | some (c, s') =>
    let got := s'.setReg 0 (zext8 c)
    .next (if echo then got.consolePut [c] else got)

/-- `ConsolePut(x[0][7:0])` (R174). -/
def outRoutine (s : State) : Host.Outcome State Fault Refusal :=
  .next (s.consolePut [lowByte (s.getReg 0)])

/-- `run <- HALTED`, with no message (R181). -/
def haltRoutine (s : State) : Host.Outcome State Fault Refusal := .next s.halt

/-- The routine a vector selects; an undefined vector selects none and does nothing (R170, R183). -/
def trapDispatch (v : BitVec 8) (s : State) : Host.Outcome State Fault Refusal :=
  match TrapRoutine.ofVector v with
  | some .getc => inputRoutine false s
  | some .out => outRoutine s
  | some .puts => stringRoutine putsStops putsChars s
  | some .inEcho => inputRoutine true s
  | some .putsp => stringRoutine putspStops putspChars s
  | some .halt => haltRoutine s
  | none => .next s

/-! ### The instructions -/

/-- TRAP with any vector (R170). -/
def execTrap (v : BitVec 8) (s : State) : Host.Outcome State Fault Refusal :=
  trapDispatch v s.trapEntry

/-- GETC, vector `0x20` (R173). -/
def execGetc (s : State) : Host.Outcome State Fault Refusal := inputRoutine false s.trapEntry

/-- OUT, vector `0x21` (R174). -/
def execOut (s : State) : Host.Outcome State Fault Refusal := outRoutine s.trapEntry

/-- PUTS, vector `0x22` (R177). -/
def execPuts (s : State) : Host.Outcome State Fault Refusal :=
  stringRoutine putsStops putsChars s.trapEntry

/-- IN, vector `0x23`: one echo, no prompt (R178). -/
def execIn (s : State) : Host.Outcome State Fault Refusal := inputRoutine true s.trapEntry

/-- PUTSP, vector `0x24` (R179). -/
def execPutsp (s : State) : Host.Outcome State Fault Refusal :=
  stringRoutine putspStops putspChars s.trapEntry

/-- HALT, vector `0x25` (R181). -/
def execHalt (s : State) : Host.Outcome State Fault Refusal := haltRoutine s.trapEntry

/-- TRAP with an undefined vector: `x[7]` is written and nothing else happens (R183). -/
def execTrapUndefined (_v : BitVec 8) (s : State) : Host.Outcome State Fault Refusal :=
  .next s.trapEntry

end Sys2Proof.Machine
end

