-- ==== Sys2Proof/Machine/Step.lean ====
section
/-! DEFINITION. One step of the core: fetch, advance, decode, execute, whole or not at all
(40_step_cycle.md R110). -/

namespace Sys2Proof.Machine

open Sys2Proof

/-- A step is taken exactly while `reset` is not asserted and `run` is RUNNING (R110); a held input
trap and an endless string have no next state (see `Fault`). -/
def step (s : State) : Host.Outcome State Fault Refusal :=
  if s.resetLine then .fault .heldInReset
  else match s.run with
    | .halted => .fault .halted
    | .running => exec (decode s.fetch) s.advance

/-- The state with a table row's word stored in the cell at the pc, where `step` fetches
(log entry 18). -/
def State.withFetchWord (s : State) (nbits w : Nat) : State := s.placeFetch (tableWord nbits w)

end Sys2Proof.Machine
end

