-- ==== Sys2Proof/Machine/Environment.lean ====
section
/-! DEFINITION. What the host and the console do to the state, between steps: the `reset` input, the
load port, the image load and the boot order, the console's offer, the `halted` output
(10_state.md R37 to R41; 70_reset_and_hazards.md R230 to R242). They are no part of `step`
(log entry 17). -/

namespace Sys2Proof.Machine

open Sys2Proof

/-! ### The reset input -/

/-- The host asserts `reset`: pc, cond and run are written, registers and memory are kept, and the
console streams restart, the input at all of `CONSOLE_IN` (R230, R231; the spec's decision D17, log
entry 16). -/
def State.assertReset (consoleIn : List Byte) (s : State) : State :=
  { s with
    resetLine := true, pc := Config.entry, cond := .z, run := .running,
    conIn := consoleIn, conOut := [] }

/-- The host releases `reset`: the next step fetches from the entry address (R230). -/
def State.releaseReset (s : State) : State := { s with resetLine := false }

/-! ### The load port and the console's ports -/

/-- A write through the load port, legal only while `reset` is asserted (10_state.md R38). -/
def State.loadPort (a v : Word) (s : State) : Host.Outcome State Fault Refusal :=
  if s.resetLine then .next (s.writeCell a v) else .refused .loadPortClosed

/-- The console offers one more character (10_state.md R39, R40). -/
def State.offerChar (c : Byte) (s : State) : State := { s with conIn := s.conIn ++ [c] }

/-- The `halted` output: 1 exactly when `run = HALTED` (10_state.md R38). -/
def State.haltedOut (s : State) : Bool := s.run = .halted

/-! ### The image load -/

/-- A program image: an origin and the words to be copied there (R236). -/
structure Image where
  origin : Word
  words : List Word
  deriving DecidableEq, Repr

/-- The two load errors, results returned to the host (60_exceptions.md R219; R239). -/
inductive LoadError where
  /-- The file cannot be opened. -/
  | notOpenable
  /-- The file holds fewer than one complete word. -/
  | noOrigin
  deriving DecidableEq, Repr

/-- Two bytes as a word, most significant byte first (R237). -/
def bigEndian (hi lo : Byte) : Word := hi ++ lo

/-- The whole 16-bit words of a byte sequence, big-endian; an odd last byte is dropped (R237, R239). -/
def wordsOfBytes : List Byte → List Word
  | hi :: lo :: rest => bigEndian hi lo :: wordsOfBytes rest
  | [_] => []
  | [] => []

/-- An image file's bytes read as an image; `none` is a file that cannot be opened (R236, R237,
R239). -/
def parseImage : Option (List Byte) → Except LoadError Image
  | none => .error .notOpenable
  | some bytes =>
    match wordsOfBytes bytes with
    | [] => .error .noOrigin
    | origin :: words => .ok { origin, words }

/-- Words written to successive cells from an address on, the address wrapping (R238). -/
def Memory.loadWords (m : Memory) : Word → List Word → Memory
  | _, [] => m
  | a, w :: ws => Memory.loadWords (m.write a w) (a + 1) ws

/-- The load of an image (R238). -/
def Memory.loadImage (m : Memory) (im : Image) : Memory := m.loadWords im.origin im.words

/-- Image files loaded in order, later ones over earlier ones (R240). After a failed load what was
written stays, nothing is rolled back, and the error is returned (R241); that no later file is
loaded then is a DESIGN CHOICE, safe (log entry 19). -/
def Memory.loadFiles (m : Memory) : List (Option (List Byte)) → Memory × Option LoadError
  | [] => (m, none)
  | f :: fs =>
    match parseImage f with
    | .error e => (m, some e)
    | .ok im => Memory.loadFiles (m.loadImage im) fs

/-- The boot order (R232): `reset` asserted, the images loaded, `reset` released only if every load
succeeded (R241). -/
def State.boot (files : List (Option (List Byte))) (consoleIn : List Byte) (s : State) : State :=
  let held := s.assertReset consoleIn
  match held.mem.loadFiles files with
  | (m, none) => State.releaseReset { held with mem := m }
  | (m, some _) => { held with mem := m }

end Sys2Proof.Machine
end

