-- ==== Sys2Proof/Safety.lean ====
section
/-! DEFINITION. The terms claims are stated in: when a step is taken, what a step or an instruction
leaves alone, the flag of a value, which registers an instruction reads and writes, the invariant.
They say what the rules say without the model's own computation where the rules give a number. -/

namespace Sys2Proof

/-- The general registers an instruction reads (10_state.md R22, column "reads"). -/
def readsOf : Instr → List Reg
  | .addReg _ sr1 sr2 | .andReg _ sr1 sr2 => [sr1, sr2]
  | .addImm _ sr1 _ | .andImm _ sr1 _ => [sr1]
  | .not _ sr => [sr]
  | .jmp base | .jsrr base => [base]
  | .ldr _ base _ => [base]
  | .st sr _ | .sti sr _ => [sr]
  | .str sr base _ => [sr, base]
  | .ret => [7]
  | .out | .puts | .putsp => [0]
  | .trap v => if v = 0x21 ∨ v = 0x22 ∨ v = 0x24 then [0] else []
  | .br .. | .jsr .. | .ld .. | .ldi .. | .lea .. | .res1000 | .res1101 | .getc | .inEcho | .halt
  | .trapUndefined .. | .nop .. => []

/-- The general registers an instruction writes (10_state.md R22, column "writes"). -/
def writesOf : Instr → List Reg
  | .addReg dr .. | .addImm dr .. | .andReg dr .. | .andImm dr .. | .not dr .. | .ld dr ..
  | .ldi dr .. | .ldr dr .. | .lea dr .. => [dr]
  | .jsr .. | .jsrr .. => [7]
  | .getc | .inEcho => [7, 0]
  | .out | .puts | .putsp | .halt | .trapUndefined .. => [7]
  | .trap v => if v = 0x20 ∨ v = 0x23 then [7, 0] else [7]
  | .br .. | .jmp .. | .st .. | .sti .. | .str .. | .res1000 | .res1101 | .ret | .nop .. => []

/-- The register whose value an instruction sets the flags from, for the seven instructions that set
them (10_state.md R30, 40_step_cycle.md R120). -/
def flagRegOf : Instr → Option Reg
  | .addReg dr .. | .addImm dr .. | .andReg dr .. | .andImm dr .. | .not dr .. | .ld dr ..
  | .ldi dr .. | .ldr dr .. | .lea dr .. => some dr
  | .br .. | .jmp .. | .jsr .. | .jsrr .. | .st .. | .sti .. | .str .. | .trap .. | .res1000
  | .res1101 | .getc | .out | .puts | .inEcho | .putsp | .halt | .trapUndefined .. | .ret
  | .nop .. => none

/-- The instructions that write memory: ST, STI, STR (20_memory.md R62). -/
def isStore : Instr → Bool
  | .st .. | .sti .. | .str .. => true
  | .addReg .. | .addImm .. | .andReg .. | .andImm .. | .not .. | .br .. | .jmp .. | .jsr ..
  | .jsrr .. | .ld .. | .ldi .. | .ldr .. | .lea .. | .trap .. | .res1000 | .res1101 | .getc | .out
  | .puts | .inEcho | .putsp | .halt | .trapUndefined .. | .ret | .nop .. => false

/-- The rows of opcode TRAP (44_trap.md). -/
def isTrap : Instr → Bool
  | .trap .. | .getc | .out | .puts | .inEcho | .putsp | .halt | .trapUndefined .. => true
  | .addReg .. | .addImm .. | .andReg .. | .andImm .. | .not .. | .br .. | .jmp .. | .jsr ..
  | .jsrr .. | .ld .. | .ldi .. | .ldr .. | .lea .. | .st .. | .sti .. | .str .. | .res1000
  | .res1101 | .ret | .nop .. => false

/-- The conditional branch, in either spelling. -/
def isBranch : Instr → Bool
  | .br .. | .nop .. => true
  | .addReg .. | .addImm .. | .andReg .. | .andImm .. | .not .. | .jmp .. | .jsr .. | .jsrr ..
  | .ld .. | .ldi .. | .ldr .. | .lea .. | .st .. | .sti .. | .str .. | .trap .. | .res1000
  | .res1101 | .getc | .out | .puts | .inEcho | .putsp | .halt | .trapUndefined .. | .ret => false

/-- The register a 3-bit field at bit `lo` of a word names, by shift and mask (30_encoding.md R83). -/
def regAt (w : Word) (lo : Nat) : Reg := Fin.ofNat 8 (w.toNat / 2 ^ lo)

end Sys2Proof

namespace Sys2Proof.Machine

open Sys2Proof

/-- The next state of an outcome, if it has one. -/
def nextState? : Host.Outcome State Fault Refusal → Option State
  | .next t => some t
  | .fault _ => none
  | .refused _ => none

/-- An outcome with no next state. -/
def NoNext (o : Host.Outcome State Fault Refusal) : Prop := ∀ t, o ≠ .next t

/-- Every general register but those listed holds what it held. -/
def RegsKept (written : List Reg) (s t : State) : Prop :=
  ∀ r, r ∉ written → t.getReg r = s.getReg r

/-- Every cell of memory but those listed reads as it read. -/
def CellsKept (stored : List Word) (s t : State) : Prop :=
  ∀ a, a ∉ stored → t.readCell a = s.readCell a

/-- No character was taken and none was put. -/
def ConsoleKept (s t : State) : Prop := t.conIn = s.conIn ∧ t.conOut = s.conOut

/-- The run state and the reset input are as they were. -/
def ControlKept (s t : State) : Prop := t.run = s.run ∧ t.resetLine = s.resetLine

/-- The flag that a 16-bit value gives, by the value's number (40_step_cycle.md R119). -/
def FlagOf (v : Word) (c : Cond) : Prop :=
  (c = .z ↔ v.toNat = 0) ∧ (c = .n ↔ 0x8000 ≤ v.toNat) ∧
    (c = .p ↔ 0 < v.toNat ∧ v.toNat < 0x8000)

/-- What a flag-setting instruction does: the value and its flag, and nothing else. -/
def WroteReg (dr : Reg) (v : Word) (s t : State) : Prop :=
  t.getReg dr = v ∧ FlagOf v t.cond ∧ RegsKept [dr] s t ∧ t.pc = s.pc ∧ CellsKept [] s t ∧
    ConsoleKept s t ∧ ControlKept s t

/-- What a store does: the one cell, and nothing else. -/
def StoredCell (a v : Word) (s t : State) : Prop :=
  t.readCell a = v ∧ CellsKept [a] s t ∧ RegsKept [] s t ∧ t.pc = s.pc ∧ t.cond = s.cond ∧
    ConsoleKept s t ∧ ControlKept s t

/-- What a control transfer does: the pc and the linked registers, and nothing else. -/
def Transferred (target : Word) (linked : List Reg) (s t : State) : Prop :=
  t.pc = target ∧ RegsKept linked s t ∧ t.cond = s.cond ∧ CellsKept [] s t ∧ ConsoleKept s t ∧
    ControlKept s t

/-- What every TRAP does and leaves alone, whatever its routine does to the registers listed, to the
console and to the run state: `x[7]` gets the pc, which stays (44_trap.md R170). -/
def Trapped (written : List Reg) (s t : State) : Prop :=
  t.getReg 7 = s.pc ∧ t.pc = s.pc ∧ RegsKept (7 :: written) s t ∧ t.cond = s.cond ∧
    CellsKept [] s t ∧ t.resetLine = s.resetLine

/-- Some cell of memory stops PUTS, PUTSP respectively (44_trap.md R180). -/
def PutsCanStop (s : State) : Prop := ∃ a : Word, s.readCell a = 0

/-- Some cell of memory has a low byte of zero (44_trap.md R180). -/
def PutspCanStop (s : State) : Prop := ∃ a : Word, (s.readCell a).toNat % 256 = 0

/-- When a step is taken (40_step_cycle.md R110, 44_trap.md R176, R180). -/
def CanStep (s : State) : Prop :=
  s.resetLine = false ∧ s.run = .running ∧
    (decode s.fetch = .getc ∨ decode s.fetch = .inEcho → s.conIn ≠ []) ∧
    (decode s.fetch = .puts → PutsCanStop s) ∧ (decode s.fetch = .putsp → PutspCanStop s)

/-- The invariant of the machine: memory is in its canonical form. -/
def State.Inv (s : State) : Prop := s.mem.wf

end Sys2Proof.Machine
end

