-- ==== Sys2Proof/Certificates/Slice0/Obligations.lean ====
section
/-! DEFINITION. The statements for the provers. `s` in a statement about `exec` is the state after
fetch and advance, so its pc is the incremented pc (40_step_cycle.md R111). Where a statement about an
instruction says which words are that instruction, it names the operation by the opcode map; the
numbers of that map are stated by `Obligations.WordsDecodeByShiftAndMask` alone, but for ADD's, which
is the source's own. -/

open Sys2Proof Sys2Proof.Machine

/-! ### Encoding -/

/-- Words written out from the spec's encodings (41_operate.md to 45_reserved.md, the examples of each
rule; 30_encoding.md R101), one or more of every family. The opcode numbers but ADD's are the spec's
decision D1 (log entry 1); which constructor a refined row has is log entry 8. -/
def Obligations.SampleWordsDecodeAsTheirExamplesSay : Prop :=
  decode 0x14C4 = .addReg 2 3 4 ∧ decode 0x1236 = .addImm 1 0 0x16 ∧
  decode 0x5283 = .andReg 1 2 3 ∧ decode 0x5020 = .andImm 0 0 0 ∧ decode 0x9B3F = .not 5 4 ∧
  decode 0x09FD = .br 0b100 0x1FD ∧ decode 0x0000 = .nop 0 ∧ decode 0xC080 = .jmp 2 ∧
  decode 0xC1C0 = .ret ∧ decode 0x4803 = .jsr 3 ∧ decode 0x40C0 = .jsrr 3 ∧
  decode 0x240A = .ld 2 10 ∧ decode 0xA213 = .ldi 1 19 ∧ decode 0x667F = .ldr 3 1 0x3F ∧
  decode 0xE20F = .lea 1 15 ∧ decode 0x3005 = .st 0 5 ∧ decode 0xB005 = .sti 0 5 ∧
  decode 0x7042 = .str 0 1 2 ∧ decode 0xF020 = .getc ∧ decode 0xF021 = .out ∧
  decode 0xF022 = .puts ∧ decode 0xF023 = .inEcho ∧ decode 0xF024 = .putsp ∧
  decode 0xF025 = .halt ∧ decode 0xF026 = .trapUndefined 0x26 ∧ decode 0x8000 = .res1000 ∧
  decode 0xD123 = .res1101

/-- Decoding what the encoder wrote gives the instruction back, every operand at every value: exactly
itself where the instruction is the most specific spelling of its words, else that spelling
(log entry 8). -/
def Obligations.DecodeGivesBackWhatEncodeWrote : Prop :=
  (∀ i : Instr, i.WellFormed = true → decode (encode i) = i.canonical) ∧
  (∀ i : Instr, i.WellFormed = true → i.canonical = i → decode (encode i) = i) ∧
  (∀ i : Instr, i.WellFormed = true → (∀ v, i ≠ .trap v) → i ≠ .jmp 7 →
    (∀ off, i ≠ .br 0 off) → i.canonical = i)

/-- Every one of the 65,536 words is a well-formed instruction in its most specific spelling, and
writing it out and reading it again changes nothing; no step refuses a word (30_encoding.md R93). That
the decoder answers the most specific spelling is the model's choice (log entry 8), not the rule's. -/
def Obligations.EveryWordIsAnInstruction : Prop :=
  (∀ w : Word, (decode w).WellFormed = true ∧ (decode w).canonical = decode w ∧
    decode (encode (decode w)) = decode w) ∧
  (∀ (s : State) (r : Refusal), step s ≠ .refused r)

/-- The fields of all sixteen opcodes, each by shift and mask on the word's number: the first level of
the decoder is this table (30_encoding.md R81 to R83, R86, R92). The opcode numbers but ADD's are the
spec's decisions D1 and D2 (log entry 1). -/
def Obligations.WordsDecodeByShiftAndMask : Prop :=
  ∀ w : Word,
    let n := w.toNat
    let off9 := BitVec.ofNat 9 n
    (n / 4096 = 0x0 → decodePrimary w = .br (BitVec.ofNat 3 (n / 512)) off9) ∧
    (n / 4096 = 0x1 → n / 32 % 2 = 0 → decodePrimary w = .addReg (regAt w 9) (regAt w 6) (regAt w 0)) ∧
    (n / 4096 = 0x1 → n / 32 % 2 = 1 →
      decodePrimary w = .addImm (regAt w 9) (regAt w 6) (BitVec.ofNat 5 n)) ∧
    (n / 4096 = 0x2 → decodePrimary w = .ld (regAt w 9) off9) ∧
    (n / 4096 = 0x3 → decodePrimary w = .st (regAt w 9) off9) ∧
    (n / 4096 = 0x4 → n / 2048 % 2 = 1 → decodePrimary w = .jsr (BitVec.ofNat 11 n)) ∧
    (n / 4096 = 0x4 → n / 2048 % 2 = 0 → decodePrimary w = .jsrr (regAt w 6)) ∧
    (n / 4096 = 0x5 → n / 32 % 2 = 0 → decodePrimary w = .andReg (regAt w 9) (regAt w 6) (regAt w 0)) ∧
    (n / 4096 = 0x5 → n / 32 % 2 = 1 →
      decodePrimary w = .andImm (regAt w 9) (regAt w 6) (BitVec.ofNat 5 n)) ∧
    (n / 4096 = 0x6 → decodePrimary w = .ldr (regAt w 9) (regAt w 6) (BitVec.ofNat 6 n)) ∧
    (n / 4096 = 0x7 → decodePrimary w = .str (regAt w 9) (regAt w 6) (BitVec.ofNat 6 n)) ∧
    (n / 4096 = 0x8 → decodePrimary w = .res1000) ∧
    (n / 4096 = 0x9 → decodePrimary w = .not (regAt w 9) (regAt w 6)) ∧
    (n / 4096 = 0xA → decodePrimary w = .ldi (regAt w 9) off9) ∧
    (n / 4096 = 0xB → decodePrimary w = .sti (regAt w 9) off9) ∧
    (n / 4096 = 0xC → decodePrimary w = .jmp (regAt w 6)) ∧
    (n / 4096 = 0xD → decodePrimary w = .res1101) ∧
    (n / 4096 = 0xE → decodePrimary w = .lea (regAt w 9) off9) ∧
    (n / 4096 = 0xF → decodePrimary w = .trap (BitVec.ofNat 8 n)) ∧
    decode w = (decodePrimary w).canonical

/-- The rows that refine another row, each by its own bits: a TRAP word by its vector
(30_encoding.md R94), JMP with base 7 as RET, BR with an empty condition field as NOP (R96, R101). That
the decoder answers the refining row is the model's choice (log entry 8). -/
def Obligations.RefinedRowsDecodeByTheirOwnBits : Prop :=
  ∀ w : Word,
    let n := w.toNat
    (n / 4096 = 0xF →
      (n % 256 = 0x20 → decode w = .getc) ∧ (n % 256 = 0x21 → decode w = .out) ∧
      (n % 256 = 0x22 → decode w = .puts) ∧ (n % 256 = 0x23 → decode w = .inEcho) ∧
      (n % 256 = 0x24 → decode w = .putsp) ∧ (n % 256 = 0x25 → decode w = .halt) ∧
      (n % 256 ≤ 0x1F ∨ 0x26 ≤ n % 256 → decode w = .trapUndefined (BitVec.ofNat 8 n))) ∧
    (n / 4096 = 0xC → n / 64 % 8 = 7 → decode w = .ret) ∧
    (n / 512 = 0 → decode w = .nop (BitVec.ofNat 9 n))

/-- Two words that differ only in the bits no field covers are the same instruction
(30_encoding.md R84, the spec's decision D6, log entry 9). -/
def Obligations.IgnoredBitsSelectNothing : Prop :=
  ∀ w w' : Word,
    ((w &&& 0xF020 = 0x1000 ∨ w &&& 0xF020 = 0x5000) → w &&& 0xFFE7 = w' &&& 0xFFE7 →
      decode w = decode w') ∧
    (w &&& 0xF000 = 0x9000 → w &&& 0xFFC0 = w' &&& 0xFFC0 → decode w = decode w') ∧
    (w &&& 0xF000 = 0xC000 → w &&& 0xF1C0 = w' &&& 0xF1C0 → decode w = decode w') ∧
    (w &&& 0xF800 = 0x4000 → w &&& 0xF9C0 = w' &&& 0xF9C0 → decode w = decode w') ∧
    (w &&& 0xF000 = 0xF000 → w &&& 0xF0FF = w' &&& 0xF0FF → decode w = decode w') ∧
    ((w &&& 0xF000 = 0x8000 ∨ w &&& 0xF000 = 0xD000) → w &&& 0xF000 = w' &&& 0xF000 →
      decode w = decode w')

/-- The hardware cannot tell a pseudo-instruction, or TRAP with a routine's vector, from the
instruction it stands for: the two spellings run alike in every state, and have the same word
(30_encoding.md R94, R101). -/
def Obligations.SpellingsOfOneWordRunAlike : Prop :=
  ∀ (i : Instr) (s : State), encode i.canonical = encode i ∧ exec i.canonical s = exec i s

/-! ### Reset, the step, the run state -/

/-- Reset writes pc, cond and run and nothing else of the block; while it is asserted no step is taken;
after its release the first step fetches from 0x3000 (70_reset_and_hazards.md R230, R231). That the
console streams restart is the spec's decision D17 (log entry 16). -/
def Obligations.ResetWritesPcCondRunOnly : Prop :=
  ∀ (s : State) (consoleIn : List Byte),
    let held := s.assertReset consoleIn
    let t := held.releaseReset
    NoNext (step held) ∧ t.pc = 0x3000 ∧ t.cond = .z ∧ t.run = .running ∧ RegsKept [] s t ∧
    CellsKept [] s t ∧ t.conIn = consoleIn ∧ t.conOut = [] ∧
    step t = exec (decode (s.readCell 0x3000)) { t with pc := 0x3001 }

/-- The state after reset, for every value of the three parameters the spec leaves open
(10_state.md R44; of the console streams it is the spec's decision D7); State.reset is one of these
(log entries 2, 3, 4). -/
def Obligations.StateAfterResetIsAsTabulated : Prop :=
  (∀ (initGpr : Vector Word 8) (initMem : Memory) (consoleIn : List Byte),
    let t := State.resetWith initGpr initMem consoleIn
    t.pc = 0x3000 ∧ t.cond = .z ∧ t.run = .running ∧ (∀ r : Reg, t.getReg r = initGpr[r]) ∧
    (∀ a : Word, t.readCell a = initMem.read a) ∧ t.conOut = [] ∧ t.conIn = consoleIn ∧
    t.resetLine = false) ∧
  (∃ initGpr initMem consoleIn, State.reset = State.resetWith initGpr initMem consoleIn)

/-- A step runs the instruction that the cell at the pc decodes to, on the state with the pc advanced by
one modulo 65,536 (40_step_cycle.md R110, R111). -/
def Obligations.StepRunsTheDecodedInstruction : Prop :=
  ∀ (s : State) (i : Instr), s.resetLine = false → s.run = .running →
    decode (s.readCell s.pc) = i →
    step s = exec i { s with pc := BitVec.ofNat 16 (s.pc.toNat + 1) }

/-- What the host's `withFetchWord` places is the instruction the next step runs, and placing it changes
the cell at the pc and nothing else (log entry 18), for a word of at most 16 bits, which
`decodeTableWord` reads as that same instruction. Of a word of more than 16 bits only this is said, that
`decodeTableWord` answers none, which is the model's choice (log entry 8). -/
def Obligations.PlacedWordRunsNext : Prop :=
  (∀ (s : State) (nbits w : Nat), nbits ≤ 16 → s.resetLine = false → s.run = .running →
    ∃ i, decodeTableWord nbits w = some i ∧
      step (s.withFetchWord nbits w) = exec i (s.withFetchWord nbits w).advance ∧
      StoredCell s.pc (BitVec.ofNat 16 (w % 2 ^ nbits)) s (s.withFetchWord nbits w)) ∧
  (∀ nbits w : Nat, 16 < nbits → decodeTableWord nbits w = none)

/-- A step is taken exactly when it is enabled: not in reset, RUNNING, a character for GETC and IN, a
stop cell for PUTS and PUTSP. That a held or endless step has no next state follows the spec's
decisions D9, D12 and D13 (log entries 6, 7, 12 and 13). -/
def Obligations.StepIsTakenExactlyWhenEnabled : Prop :=
  ∀ s : State, (∃ t, step s = .next t) ↔ CanStep s

/-- RUNNING and HALTED: RUNNING after reset; only the HALT trap halts, and it always does; HALTED takes
no step (10_state.md R32). The last clause, that the reset input leads back to RUNNING from HALTED, is
a second reset: the spec's decision D17 (70_reset_and_hazards.md R231; log entry 16). -/
def Obligations.OnlyHaltTrapHalts : Prop :=
  (∀ g m c, (State.resetWith g m c).run = .running) ∧
  (∀ s t : State, step s = .next t →
    s.run = .running ∧ (t.run = .halted ↔ decode (s.readCell s.pc) = .halt)) ∧
  (∀ s : State, s.run = .halted → NoNext (step s)) ∧
  (∀ (s : State) (c : List Byte), s.run = .halted → (s.assertReset c).releaseReset.run = .running)

/-! ### Sign extension and flags -/

/-- The 16-bit word with the value of an N-bit two's-complement field, N from 1 to 16
(40_step_cycle.md R116). -/
def Obligations.SextKeepsTheSignedValue : Prop :=
  ∀ (n : Nat) (v : BitVec n), 1 ≤ n → n ≤ 16 →
    (v.toNat < 2 ^ (n - 1) → (sext v).toNat = v.toNat) ∧
    (2 ^ (n - 1) ≤ v.toNat → (sext v).toNat = 65536 - 2 ^ n + v.toNat) ∧
    (sext v).toInt = v.toInt

/-- The block `sign_extend_utility`: on an in-contract value it is `sext`; on any value the literal
formula, bit by bit; a width outside 1 to 16 is refused (40_step_cycle.md R117). -/
def Obligations.SignExtendUtilityFollowsItsContract : Prop :=
  (∀ (n : Nat) (v : BitVec n), 1 ≤ n → n ≤ 16 →
    signExtendUtility (v.setWidth 16) n = .ok (sext v)) ∧
  (∀ (value : Word) (n : Nat), 1 ≤ n → n ≤ 16 →
    ∃ out, signExtendUtility value n = .ok out ∧
      ∀ k, k < 16 → out.getLsbD k = (value.getLsbD k || (decide (n ≤ k) && value.getLsbD (n - 1)))) ∧
  (∀ (value : Word) (n : Nat), n = 0 ∨ 16 < n →
    signExtendUtility value n = .error (.signExtendWidth n))

/-- `sign_extend_utility` on its own output changes nothing, for every 16-bit input and every width;
and the source's two boundary values (40_step_cycle.md R118). -/
def Obligations.SignExtendUtilityIsIdempotent : Prop :=
  (∀ (x : Word) (n : Nat), 1 ≤ n → n ≤ 16 →
    ∃ out, signExtendUtility x n = .ok out ∧ signExtendUtility out n = .ok out) ∧
  signExtendUtility 0b11111 5 = .ok 0xFFFF ∧ signExtendUtility 0b01111 5 = .ok 0x000F

/-- `setcc(r)` sets exactly the flag of the value the register holds, and changes nothing else
(40_step_cycle.md R119). -/
def Obligations.SetccTakesTheFlagOfTheRegister : Prop :=
  ∀ (r : Reg) (s : State),
    FlagOf (s.getReg r) (s.setcc r).cond ∧ RegsKept [] s (s.setcc r) ∧ (s.setcc r).pc = s.pc ∧
    CellsKept [] s (s.setcc r) ∧ ConsoleKept s (s.setcc r) ∧ ControlKept s (s.setcc r)

/-- Writers and readers of `cond`: a step changes it only for ADD, AND, NOT, LD, LDI, LDR, LEA, each
leaving the flag of its destination register; and but for BR no instruction's effect depends on it
(10_state.md R30). -/
def Obligations.OnlySevenWriteAndOnlyBranchReadsFlags : Prop :=
  (∀ s t : State, step s = .next t →
    match flagRegOf (decode (s.readCell s.pc)) with
    | some dr => FlagOf (t.getReg dr) t.cond
    | none => t.cond = s.cond) ∧
  (∀ (i : Instr) (s t : State) (c : Cond), isBranch i = false → exec i s = .next t →
    exec i { s with cond := c } =
      .next (if (flagRegOf i).isSome then t else { t with cond := c }))

/-! ### Operate instructions -/

/-- ADD, both forms: the 16-bit modular sum, its flag, nothing else (41_operate.md R130, R131). -/
def Obligations.AddWritesTheModularSum : Prop :=
  (∀ w : Word, w.toNat / 4096 = 0x1 →
    decode w = if w.toNat / 32 % 2 = 0 then .addReg (regAt w 9) (regAt w 6) (regAt w 0)
      else .addImm (regAt w 9) (regAt w 6) (BitVec.ofNat 5 w.toNat)) ∧
  (∀ (dr sr1 sr2 : Reg) (s : State), ∃ t, exec (.addReg dr sr1 sr2) s = .next t ∧
    WroteReg dr (BitVec.ofNat 16 ((s.getReg sr1).toNat + (s.getReg sr2).toNat)) s t) ∧
  (∀ (dr sr1 : Reg) (imm5 : BitVec 5) (s : State), ∃ t, exec (.addImm dr sr1 imm5) s = .next t ∧
    WroteReg dr (BitVec.ofInt 16 ((s.getReg sr1).toInt + imm5.toInt)) s t)

/-- AND, both forms: every bit the conjunction of the sources' bits, the immediate's sign bit standing
for the bits above it; the flag of the result; nothing else (41_operate.md R132, R133). -/
def Obligations.AndWritesTheBitwiseConjunction : Prop :=
  (∀ w : Word, Opcode.ofBits (field 12 4 w) = .and →
    decode w = if w.toNat / 32 % 2 = 0 then .andReg (regAt w 9) (regAt w 6) (regAt w 0)
      else .andImm (regAt w 9) (regAt w 6) (BitVec.ofNat 5 w.toNat)) ∧
  (∀ (dr sr1 sr2 : Reg) (s : State), ∃ t v, exec (.andReg dr sr1 sr2) s = .next t ∧
    WroteReg dr v s t ∧
    ∀ k, k < 16 → v.getLsbD k = ((s.getReg sr1).getLsbD k && (s.getReg sr2).getLsbD k)) ∧
  (∀ (dr sr1 : Reg) (imm5 : BitVec 5) (s : State), ∃ t v, exec (.andImm dr sr1 imm5) s = .next t ∧
    WroteReg dr v s t ∧
    ∀ k, k < 16 → v.getLsbD k = ((s.getReg sr1).getLsbD k && imm5.getLsbD (min k 4)))

/-- NOT: 0xFFFF minus the source, its flag, nothing else (41_operate.md R134). -/
def Obligations.NotWritesTheComplement : Prop :=
  (∀ w : Word, Opcode.ofBits (field 12 4 w) = .not → decode w = .not (regAt w 9) (regAt w 6)) ∧
  (∀ (dr sr : Reg) (s : State), ∃ t, exec (.not dr sr) s = .next t ∧
    WroteReg dr (BitVec.ofNat 16 (0xFFFF - (s.getReg sr).toNat)) s t)

/-! ### Control transfer -/

/-- BR: to pc plus the signed offset if a set bit of the condition field is the current flag's, else no
change (42_control.md R140). Its words with an empty field are decoded as NOP (log entry 8). -/
def Obligations.BranchIsTakenExactlyOnItsFlags : Prop :=
  (∀ w : Word, Opcode.ofBits (field 12 4 w) = .br →
    decodePrimary w = .br (BitVec.ofNat 3 (w.toNat / 512)) (BitVec.ofNat 9 w.toNat)) ∧
  (∀ (nzp : BitVec 3) (off : BitVec 9) (s : State), ∃ t, exec (.br nzp off) s = .next t ∧
    ((nzp.getLsbD 2 = true ∧ s.cond = .n) ∨ (nzp.getLsbD 1 = true ∧ s.cond = .z) ∨
        (nzp.getLsbD 0 = true ∧ s.cond = .p) →
      Transferred (BitVec.ofInt 16 (s.pc.toInt + off.toInt)) [] s t) ∧
    (¬((nzp.getLsbD 2 = true ∧ s.cond = .n) ∨ (nzp.getLsbD 1 = true ∧ s.cond = .z) ∨
        (nzp.getLsbD 0 = true ∧ s.cond = .p)) → t = s)) ∧
  (∀ (off : BitVec 9) (s : State), exec (.br 0b111 off) s = .next (s.setPc (branchTarget off s)) ∧
    exec (.br 0b000 off) s = .next s)

/-- The encodings that do nothing but advance the pc: NOP, whatever its offset, and the words that are
NOP (30_encoding.md R96); the two reserved opcodes (45_reserved.md R190, R191). Which opcode values
are reserved is the spec's decision D2 (log entries 1 and 15). -/
def Obligations.NopAndReservedOnlyAdvance : Prop :=
  (∀ (off : BitVec 9) (s : State), exec (.nop off) s = .next s) ∧
  (∀ s : State, exec .res1000 s = .next s ∧ exec .res1101 s = .next s) ∧
  (∀ s : State, s.resetLine = false → s.run = .running →
    ((s.readCell s.pc).toNat / 4096 = 0x8 ∨ (s.readCell s.pc).toNat / 4096 = 0xD ∨
      (s.readCell s.pc).toNat ≤ 0x01FF) →
    step s = .next { s with pc := s.pc + 1 })

/-- JMP goes to the base register's value and changes nothing else (42_control.md R141); the words with
base 7 are decoded as RET (log entry 8). -/
def Obligations.JmpGoesToTheBaseRegister : Prop :=
  (∀ w : Word, Opcode.ofBits (field 12 4 w) = .jmp → decodePrimary w = .jmp (regAt w 6)) ∧
  (∀ (base : Reg) (s : State), ∃ t, exec (.jmp base) s = .next t ∧
    Transferred (s.getReg base) [] s t)

/-- RET goes to `x[7]` and changes nothing else, and it is JMP R7; after a JSR, a RET that runs in any
state whose `x[7]` is still the one the JSR left comes back to the instruction after the JSR (the round
trip of 42_control.md R142). That 0xC1C0 is its word rests on the opcode number of JMP, the spec's
decision D1 (log entry 1), and, for the encoder, on the ignored bits written 0 (log entry 9). -/
def Obligations.RetReturnsToTheInstructionAfterJsr : Prop :=
  (∀ s : State, ∃ t, exec .ret s = .next t ∧ Transferred (s.getReg 7) [] s t) ∧
  decodePrimary 0xC1C0 = .jmp 7 ∧ encode (.jmp 7) = 0xC1C0 ∧ (∀ s : State, exec .ret s = exec (.jmp 7) s) ∧
  (∀ (s t later u : State) (off : BitVec 11), s.resetLine = false → s.run = .running →
    decode (s.readCell s.pc) = .jsr off → step s = .next t → later.getReg 7 = t.getReg 7 →
    decode (later.readCell later.pc) = .ret → step later = .next u → u.pc = s.pc + 1)

/-- JSR writes the incremented pc to `x[7]` and goes to the incremented pc plus the signed offset;
nothing else changes (42_control.md R143). -/
def Obligations.JsrLinksAndJumps : Prop :=
  (∀ w : Word, Opcode.ofBits (field 12 4 w) = .jsr → w.toNat / 2048 % 2 = 1 →
    decode w = .jsr (BitVec.ofNat 11 w.toNat)) ∧
  (∀ (off : BitVec 11) (s : State), ∃ t, exec (.jsr off) s = .next t ∧
    t.getReg 7 = s.pc ∧ Transferred (BitVec.ofInt 16 (s.pc.toInt + off.toInt)) [7] s t)

/-- JSRR writes `x[7]` first and reads the base after that, so JSRR R7 goes to the incremented pc; every
other base gives the value it held; nothing else changes (42_control.md R144; log entry 10). -/
def Obligations.JsrrLinksBeforeItReadsTheBase : Prop :=
  (∀ w : Word, Opcode.ofBits (field 12 4 w) = .jsr → w.toNat / 2048 % 2 = 0 →
    decode w = .jsrr (regAt w 6)) ∧
  (∀ (base : Reg) (s : State), ∃ t, exec (.jsrr base) s = .next t ∧ t.getReg 7 = s.pc ∧
    Transferred (if base = 7 then s.pc else s.getReg base) [7] s t)

/-! ### Loads and stores -/

/-- The effective addresses: pc-relative to the incremented pc, indirect through the pc-relative pointer
cell, base plus offset, all modulo 65,536 (43_load_store.md R157, 20_memory.md R55). -/
def Obligations.EffectiveAddressesAreModularSums : Prop :=
  ∀ (s : State) (off9 : BitVec 9) (off6 : BitVec 6) (base : Reg),
    eaPcRel off9 s = BitVec.ofInt 16 (s.pc.toNat + off9.toInt) ∧
    eaIndirect off9 s = s.readCell (BitVec.ofInt 16 (s.pc.toNat + off9.toInt)) ∧
    eaBase base off6 s = BitVec.ofInt 16 ((s.getReg base).toNat + off6.toInt)

/-- LD writes the cell at the pc-relative address, its flag, nothing else (43_load_store.md R150). -/
def Obligations.LdLoadsThePcRelativeCell : Prop :=
  (∀ w : Word, Opcode.ofBits (field 12 4 w) = .ld →
    decode w = .ld (regAt w 9) (BitVec.ofNat 9 w.toNat)) ∧
  (∀ (dr : Reg) (off : BitVec 9) (s : State), ∃ t, exec (.ld dr off) s = .next t ∧
    WroteReg dr (s.readCell (BitVec.ofInt 16 (s.pc.toInt + off.toInt))) s t)

/-- LDI writes the cell the pointer cell names, the flag of that data, nothing else
(43_load_store.md R151). -/
def Obligations.LdiLoadsThroughThePointerCell : Prop :=
  (∀ w : Word, Opcode.ofBits (field 12 4 w) = .ldi →
    decode w = .ldi (regAt w 9) (BitVec.ofNat 9 w.toNat)) ∧
  (∀ (dr : Reg) (off : BitVec 9) (s : State), ∃ t, exec (.ldi dr off) s = .next t ∧
    WroteReg dr (s.readCell (s.readCell (BitVec.ofInt 16 (s.pc.toInt + off.toInt)))) s t)

/-- LDR writes the cell at base plus offset, the base read before the write, its flag, nothing else
(43_load_store.md R152). -/
def Obligations.LdrLoadsTheBaseOffsetCell : Prop :=
  (∀ w : Word, Opcode.ofBits (field 12 4 w) = .ldr →
    decode w = .ldr (regAt w 9) (regAt w 6) (BitVec.ofNat 6 w.toNat)) ∧
  (∀ (dr base : Reg) (off : BitVec 6) (s : State), ∃ t, exec (.ldr dr base off) s = .next t ∧
    WroteReg dr (s.readCell (BitVec.ofInt 16 ((s.getReg base).toInt + off.toInt))) s t)

/-- LEA writes the address itself, sets the flag from it, and its result does not depend on memory
(43_load_store.md R153). -/
def Obligations.LeaWritesTheAddressAndItsFlag : Prop :=
  (∀ w : Word, Opcode.ofBits (field 12 4 w) = .lea →
    decode w = .lea (regAt w 9) (BitVec.ofNat 9 w.toNat)) ∧
  (∀ (dr : Reg) (off : BitVec 9) (s : State), ∃ t, exec (.lea dr off) s = .next t ∧
    WroteReg dr (BitVec.ofInt 16 (s.pc.toInt + off.toInt)) s t ∧
    ∀ m, exec (.lea dr off) { s with mem := m } = .next { t with mem := m })

/-- ST stores the register in the cell at the pc-relative address; no flag, no register, no other cell
(43_load_store.md R154). -/
def Obligations.StStoresThePcRelativeCell : Prop :=
  (∀ w : Word, Opcode.ofBits (field 12 4 w) = .st →
    decode w = .st (regAt w 9) (BitVec.ofNat 9 w.toNat)) ∧
  (∀ (sr : Reg) (off : BitVec 9) (s : State), ∃ t, exec (.st sr off) s = .next t ∧
    StoredCell (eaPcRel off s) (s.getReg sr) s t ∧
    eaPcRel off s = BitVec.ofInt 16 (s.pc.toInt + off.toInt))

/-- STI stores the register in the cell the pointer cell names; no flag, no register, no other cell
(43_load_store.md R155). -/
def Obligations.StiStoresThroughThePointerCell : Prop :=
  (∀ w : Word, Opcode.ofBits (field 12 4 w) = .sti →
    decode w = .sti (regAt w 9) (BitVec.ofNat 9 w.toNat)) ∧
  (∀ (sr : Reg) (off : BitVec 9) (s : State), ∃ t, exec (.sti sr off) s = .next t ∧
    StoredCell (eaIndirect off s) (s.getReg sr) s t ∧
    eaIndirect off s = s.readCell (BitVec.ofInt 16 (s.pc.toInt + off.toInt)))

/-- STR stores the register in the cell at base plus offset; no flag, no register, no other cell
(43_load_store.md R156). -/
def Obligations.StrStoresTheBaseOffsetCell : Prop :=
  (∀ w : Word, Opcode.ofBits (field 12 4 w) = .str →
    decode w = .str (regAt w 9) (regAt w 6) (BitVec.ofNat 6 w.toNat)) ∧
  (∀ (sr base : Reg) (off : BitVec 6) (s : State), ∃ t, exec (.str sr base off) s = .next t ∧
    StoredCell (eaBase base off s) (s.getReg sr) s t ∧
    eaBase base off s = BitVec.ofInt 16 ((s.getReg base).toInt + off.toInt))

/-! ### TRAP -/

/-- Every TRAP, whatever its vector, that completes: `x[7]` has the incremented pc, the pc stays there,
`cond`, memory and the reset input are as they were, and of the other registers only `x[0]` may differ,
and that for GETC and IN alone (44_trap.md R170, R172). -/
def Obligations.EveryTrapLinksAndStaysInLine : Prop :=
  ∀ (i : Instr) (s t : State), isTrap i = true → exec i s = .next t →
    Trapped (if 0 ∈ writesOf i then [0] else []) s t ∧
    ∀ c, ∃ t', exec i { s with cond := c } = .next t' ∧ t' = { t with cond := c }

/-- GETC: the next character into the low byte of `x[0]`, the high byte cleared, no echo; with no
character there is no next state (44_trap.md R173, R176). That last clause is the spec's decisions D12
and D13, a held step as an outcome with no next state (log entries 6, 12 and 13). -/
def Obligations.GetcReadsOneCharacterWithoutEcho : Prop :=
  ∀ (i : Instr) (s : State), (i = .getc ∨ i = .trap 0x20) →
    (∀ c rest, s.conIn = c :: rest → ∃ t, exec i s = .next t ∧ Trapped [0] s t ∧
      (t.getReg 0).toNat = c.toNat ∧ t.conIn = rest ∧ t.conOut = s.conOut ∧ t.run = s.run) ∧
    (s.conIn = [] → NoNext (exec i s))

/-- OUT: the low byte of `x[0]` is put, nothing else but the link (44_trap.md R174). -/
def Obligations.OutPutsTheLowByte : Prop :=
  ∀ (i : Instr) (s : State), (i = .out ∨ i = .trap 0x21) →
    ∃ t, exec i s = .next t ∧ Trapped [] s t ∧ t.conIn = s.conIn ∧ t.run = s.run ∧
      t.conOut = s.conOut ++ [BitVec.ofNat 8 (s.getReg 0).toNat]

/-- IN: as GETC, and the character is echoed, with no prompt. The cleared high byte and the missing
prompt are the spec's decision D11 (44_trap.md R178; log entry 14). -/
def Obligations.InReadsOneCharacterAndEchoesIt : Prop :=
  ∀ (i : Instr) (s : State), (i = .inEcho ∨ i = .trap 0x23) →
    (∀ c rest, s.conIn = c :: rest → ∃ t, exec i s = .next t ∧ Trapped [0] s t ∧
      (t.getReg 0).toNat = c.toNat ∧ t.conIn = rest ∧ t.conOut = s.conOut ++ [c] ∧
      t.run = s.run) ∧
    (s.conIn = [] → exec i s = .fault .heldForInput)

/-- PUTS: the low byte of each cell from `x[0]` on, up to and not including the first zero cell, the
address wrapping; with no zero cell in memory there is no next state. The low byte of a cell above
0x00FF is the spec's decision D10, wrap and hang its decision D9 (44_trap.md R177, R180; log entries 7
and 11). -/
def Obligations.PutsPutsTheCellsBeforeTheZeroCell : Prop :=
  ∀ (i : Instr) (s : State), (i = .puts ∨ i = .trap 0x22) →
    (∀ n : Nat, n < 65536 → s.readCell (s.getReg 0 + BitVec.ofNat 16 n) = 0 →
      (∀ k, k < n → s.readCell (s.getReg 0 + BitVec.ofNat 16 k) ≠ 0) →
      ∃ t, exec i s = .next t ∧ Trapped [] s t ∧ t.conIn = s.conIn ∧ t.run = s.run ∧
        t.conOut = s.conOut ++ (List.range n).map
          (fun k => BitVec.ofNat 8 (s.readCell (s.getReg 0 + BitVec.ofNat 16 k)).toNat)) ∧
    (¬PutsCanStop s → exec i s = .fault .stringNeverEnds)

/-- PUTSP: of each cell from `x[0]` on the low byte, then the high byte if nonzero, up to and not
including the first cell whose low byte is zero, the address wrapping; with no such cell in memory
there is no next state. Wrap and hang are the spec's decision D9 (44_trap.md R179, R180; log
entry 7). -/
def Obligations.PutspPutsBothBytesBeforeTheZeroLowByte : Prop :=
  ∀ (i : Instr) (s : State), (i = .putsp ∨ i = .trap 0x24) →
    (∀ n : Nat, n < 65536 → (s.readCell (s.getReg 0 + BitVec.ofNat 16 n)).toNat % 256 = 0 →
      (∀ k, k < n → (s.readCell (s.getReg 0 + BitVec.ofNat 16 k)).toNat % 256 ≠ 0) →
      ∃ t, exec i s = .next t ∧ Trapped [] s t ∧ t.conIn = s.conIn ∧ t.run = s.run ∧
        t.conOut = s.conOut ++ (List.range n).flatMap (fun k =>
          let w := (s.readCell (s.getReg 0 + BitVec.ofNat 16 k)).toNat
          if w / 256 = 0 then [BitVec.ofNat 8 w] else [BitVec.ofNat 8 w, BitVec.ofNat 8 (w / 256)])) ∧
    (¬PutspCanStop s → exec i s = .fault .stringNeverEnds)

/-- HALT: the run state becomes HALTED, the link is written, nothing is put. That no message is put is
the spec's decision D11 (44_trap.md R181; log entry 14). -/
def Obligations.HaltHaltsAndPutsNothing : Prop :=
  ∀ (i : Instr) (s : State), (i = .halt ∨ i = .trap 0x25) →
    ∃ t, exec i s = .next t ∧ Trapped [] s t ∧ t.run = .halted ∧ ConsoleKept s t

/-- An undefined vector, 0x00 to 0x1F or 0x26 to 0xFF: the link is written and nothing else happens
(44_trap.md R183). -/
def Obligations.UndefinedVectorOnlyLinks : Prop :=
  ∀ (i : Instr) (v : BitVec 8) (s : State), (i = .trapUndefined v ∨ i = .trap v) →
    (v.toNat ≤ 0x1F ∨ 0x26 ≤ v.toNat) →
    ∃ t, exec i s = .next t ∧ Trapped [] s t ∧ ConsoleKept s t ∧ t.run = s.run

/-! ### Whole-machine rules -/

/-- Which instructions read and write which registers: an instruction leaves every register outside its
row's "writes" as it was, and its effect does not depend on a register outside its row's "reads"
(10_state.md R22). -/
def Obligations.RegistersReadAndWrittenAsTabulated : Prop :=
  (∀ (i : Instr) (s t : State), exec i s = .next t → RegsKept (writesOf i) s t) ∧
  (∀ (i : Instr) (s t : State) (r : Reg) (v : Word), r ∉ readsOf i → exec i s = .next t →
    ∃ t', exec i (s.setReg r v) = .next t' ∧ RegsKept [r] t t' ∧
      (r ∈ writesOf i → t'.getReg r = t.getReg r) ∧ t'.pc = t.pc ∧ t'.cond = t.cond ∧
      t'.mem = t.mem ∧ ConsoleKept t t' ∧ ControlKept t t')

/-- Who changes memory: at run time ST, STI and STR only (20_memory.md R62). The load port is closed
unless reset is asserted, in HALTED too, and writes one cell while it is (10_state.md R38, the spec's
decision D7; that it is a function beside the step is log entry 17). -/
def Obligations.OnlyStoresChangeMemory : Prop :=
  (∀ s t : State, step s = .next t → isStore (decode (s.readCell s.pc)) = false → t.mem = s.mem) ∧
  (∀ (s : State) (a v : Word), s.resetLine = false → NoNext (s.loadPort a v)) ∧
  (∀ (s : State) (a v : Word), s.resetLine = true →
    ∃ t, s.loadPort a v = .next t ∧ t.readCell a = v ∧ CellsKept [a] s t)

/-- MemWrite changes one cell and no other state; MemRead gives the last value written
(20_memory.md R53, R54). -/
def Obligations.MemWriteChangesExactlyOneCell : Prop :=
  ∀ (s : State) (a v : Word), StoredCell a v s (s.writeCell a v)

/-- A store is seen by the very next fetch: ST with offset 0 makes the next step run the word it stored
(20_memory.md R67). -/
def Obligations.StoreIsSeenByTheNextFetch : Prop :=
  ∀ (s : State) (sr : Reg), s.resetLine = false → s.run = .running →
    decode (s.readCell s.pc) = .st sr 0 →
    ∃ t, step s = .next t ∧ t.pc = s.pc + 1 ∧ t.readCell t.pc = s.getReg sr ∧
      step t = exec (decode (s.getReg sr)) { t with pc := s.pc + 2 }

/-- Every step keeps memory in its canonical form, from every state that has it. -/
def Obligations.EveryStepKeepsMemoryCanonical : Prop :=
  ∀ s t : State, s.Inv → step s = .next t → t.Inv

/-- Memory after reset is in canonical form. It speaks of State.reset alone, whose memory lists nothing:
a choice of the model, for the spec leaves INIT_MEM open (10_state.md R44; log entry 3). The form is
the model's (log entry 5). -/
def Obligations.MemoryIsCanonicalAfterReset : Prop := State.reset.Inv

/-- Memories in canonical form that read alike in all 65,536 cells are the same data
(20_memory.md R50). -/
def Obligations.CanonicalMemoriesReadingAlikeAreEqual : Prop :=
  ∀ m m' : Memory, m.wf → m'.wf → (∀ a : Word, m.read a = m'.read a) → m = m'

/-- Console traffic: only a TRAP takes or puts characters; a step takes at most one, from the front, and
what was put stays put (10_state.md R39 to R41). -/
def Obligations.ConsoleTrafficIsByTrapsAndInOrder : Prop :=
  ∀ s t : State, step s = .next t →
    (∃ put, t.conOut = s.conOut ++ put) ∧ (t.conIn = s.conIn ∨ ∃ c, s.conIn = c :: t.conIn) ∧
    (isTrap (decode (s.readCell s.pc)) = false → ConsoleKept s t)

/-- No step depends on what has been put before: with another output history every step has the same
outcome but for that history (10_state.md R41). -/
def Obligations.OutputHistoryIsNeverRead : Prop :=
  ∀ (s t : State) (before : List Byte), step s = .next t →
    step { s with conOut := before ++ s.conOut } = .next { t with conOut := before ++ t.conOut }

/-- Input offered later never changes what a step does: offering a character and then stepping is
stepping and then offering it; and a step held for input proceeds once a character is offered
(70_reset_and_hazards.md R252, 10_state.md R40). -/
def Obligations.LaterInputNeverChangesAStep : Prop :=
  (∀ (s t : State) (c : Byte), step s = .next t → step (s.offerChar c) = .next (t.offerChar c)) ∧
  (∀ (s : State) (c : Byte), step s = .fault .heldForInput →
    ∃ t, step (s.offerChar c) = .next t ∧ (t.getReg 0).toNat = c.toNat)

/-! ### The image load -/

/-- The load of an image writes its words to successive cells from the origin, the address wrapping, a
later word over an earlier one in the same cell, and no other cell (70_reset_and_hazards.md R238). -/
def Obligations.ImageLoadIsOriginExact : Prop :=
  ∀ (m : Memory) (im : Image),
    (∀ i (h : i < im.words.length),
      (∀ j, i < j → j < im.words.length → i % 65536 ≠ j % 65536) →
      (m.loadImage im).read (im.origin + BitVec.ofNat 16 i) = im.words[i]) ∧
    (∀ a : Word, (∀ i, i < im.words.length → a ≠ im.origin + BitVec.ofNat 16 i) →
      (m.loadImage im).read a = m.read a)

/-- The image file: big-endian, the first value the origin, the others the words; an odd last byte is
dropped; fewer than two bytes, or no file, is a failure (70_reset_and_hazards.md R237, R239). -/
def Obligations.ImageFileIsBigEndianWholeWords : Prop :=
  parseImage none = .error .notOpenable ∧ parseImage (some []) = .error .noOrigin ∧
  (∀ b, parseImage (some [b]) = .error .noOrigin) ∧
  (∀ (b0 b1 : Byte) (rest : List Byte), ∃ im, parseImage (some (b0 :: b1 :: rest)) = .ok im ∧
    im.origin.toNat = b0.toNat * 256 + b1.toNat ∧ im.words.length = rest.length / 2 ∧
    ∀ i (h : i < im.words.length) (hlo : 2 * i + 1 < rest.length),
      (im.words[i]).toNat = rest[2 * i].toNat * 256 + rest[2 * i + 1].toNat)

/-- Several images: the memory after all loads is that of loading each in order
(70_reset_and_hazards.md R240); reset is released only if every load succeeded, and then the core starts
at 0x3000 with the registers it had; after a failed load no step is taken (R232, R241). That the
console streams restart, the input at the given CONSOLE_IN and the output empty, is the spec's
decisions D7 and D17 (log entry 16). -/
def Obligations.BootLoadsInOrderAndStartsOnlyOnSuccess : Prop :=
  (∀ (ims : List Image) (files : List (Option (List Byte))) (m : Memory),
    files.map parseImage = ims.map Except.ok →
    m.loadFiles files = (ims.foldl Memory.loadImage m, none)) ∧
  (∀ (s : State) (files : List (Option (List Byte))) (consoleIn : List Byte),
    let t := s.boot files consoleIn
    (t.resetLine = false ↔ ∀ f ∈ files, ∃ im, parseImage f = .ok im) ∧
    t.pc = 0x3000 ∧ t.cond = .z ∧ t.run = .running ∧ RegsKept [] s t ∧ t.conIn = consoleIn ∧
    t.conOut = [] ∧ t.mem = (s.mem.loadFiles files).1 ∧
    ((∃ f ∈ files, ∃ e, parseImage f = .error e) → NoNext (step t)))
end

