-- ==== Sys2Proof/Laws/Decode.lean ====
section
/-! SUPPORT. The opcode map read both ways, and a field of a word that fields were placed into. -/

namespace Sys2Proof

/-! ### The two maps -/

@[simp] theorem Opcode.ofBits_bits (o : Opcode) : Opcode.ofBits o.bits = o := by
  cases o <;> decide

theorem Opcode.bits_ofBits : ∀ b : BitVec 4, (Opcode.ofBits b).bits = b := by decide

@[simp] theorem TrapRoutine.ofVector_vector (r : TrapRoutine) :
    TrapRoutine.ofVector r.vector = some r := by
  cases r <;> decide

/-- A vector selects no routine exactly when it is undefined (44_trap.md R183). -/
theorem TrapRoutine.ofVector_eq_none {v : BitVec 8} :
    TrapRoutine.ofVector v = none ↔ vectorUndefined v = true := by
  revert v; decide

/-! ### Fields -/

@[simp] theorem field_or (lo len : Nat) (a b : Word) :
    field lo len (a ||| b) = field lo len a ||| field lo len b := by
  ext i h; simp [field]

/-- The field that was placed. -/
theorem field_place {n : Nat} (lo : Nat) (v : BitVec n) (h : lo + n ≤ 16) :
    field lo n (place lo v) = v := by
  ext i hi
  have : lo + i < 16 := by omega
  have : i < 16 := by omega
  simp [field, place, *]

/-- A field beside the one that was placed. -/
theorem field_place_beside {n lo lo' len : Nat} (v : BitVec n)
    (h : lo' + n ≤ lo ∨ lo + len ≤ lo') : field lo len (place lo' v) = 0 := by
  ext i hi
  simp only [field, place, BitVec.getElem_extractLsb', BitVec.getLsbD_shiftLeft,
    BitVec.getLsbD_setWidth]
  rcases h with h | h
  · simp [BitVec.getLsbD_of_ge v (lo + i - lo') (by omega)]
  · simp; omega

/-- A register field by the bits it was placed with. -/
theorem fieldReg_eq {lo : Nat} {w : Word} {r : Reg} (h : field lo 3 w = BitVec.ofFin r) :
    fieldReg lo w = r := by
  simp [fieldReg, h]

end Sys2Proof
end

