-- ==== Sys2Proof/Laws/State.lean ====
section
/-! SUPPORT. One lemma per field of State per update, and what a read of a register or a cell gives
after an update. -/

namespace Sys2Proof.Machine

open Sys2Proof

/-! ### setReg -/

@[simp] theorem State.setReg_regs (s : State) (r : Reg) (v : Word) :
    (s.setReg r v).regs = s.regs.set r v := rfl
@[simp] theorem State.setReg_pc (s : State) (r : Reg) (v : Word) :
    (s.setReg r v).pc = s.pc := rfl
@[simp] theorem State.setReg_cond (s : State) (r : Reg) (v : Word) :
    (s.setReg r v).cond = s.cond := rfl
@[simp] theorem State.setReg_run (s : State) (r : Reg) (v : Word) :
    (s.setReg r v).run = s.run := rfl
@[simp] theorem State.setReg_mem (s : State) (r : Reg) (v : Word) :
    (s.setReg r v).mem = s.mem := rfl
@[simp] theorem State.setReg_resetLine (s : State) (r : Reg) (v : Word) :
    (s.setReg r v).resetLine = s.resetLine := rfl
@[simp] theorem State.setReg_conIn (s : State) (r : Reg) (v : Word) :
    (s.setReg r v).conIn = s.conIn := rfl
@[simp] theorem State.setReg_conOut (s : State) (r : Reg) (v : Word) :
    (s.setReg r v).conOut = s.conOut := rfl

/-! ### setPc -/

@[simp] theorem State.setPc_regs (s : State) (target : Word) :
    (s.setPc target).regs = s.regs := rfl
@[simp] theorem State.setPc_pc (s : State) (target : Word) :
    (s.setPc target).pc = target := rfl
@[simp] theorem State.setPc_cond (s : State) (target : Word) :
    (s.setPc target).cond = s.cond := rfl
@[simp] theorem State.setPc_run (s : State) (target : Word) :
    (s.setPc target).run = s.run := rfl
@[simp] theorem State.setPc_mem (s : State) (target : Word) :
    (s.setPc target).mem = s.mem := rfl
@[simp] theorem State.setPc_resetLine (s : State) (target : Word) :
    (s.setPc target).resetLine = s.resetLine := rfl
@[simp] theorem State.setPc_conIn (s : State) (target : Word) :
    (s.setPc target).conIn = s.conIn := rfl
@[simp] theorem State.setPc_conOut (s : State) (target : Word) :
    (s.setPc target).conOut = s.conOut := rfl

/-! ### writeCell -/

@[simp] theorem State.writeCell_regs (s : State) (a v : Word) :
    (s.writeCell a v).regs = s.regs := rfl
@[simp] theorem State.writeCell_pc (s : State) (a v : Word) :
    (s.writeCell a v).pc = s.pc := rfl
@[simp] theorem State.writeCell_cond (s : State) (a v : Word) :
    (s.writeCell a v).cond = s.cond := rfl
@[simp] theorem State.writeCell_run (s : State) (a v : Word) :
    (s.writeCell a v).run = s.run := rfl
@[simp] theorem State.writeCell_mem (s : State) (a v : Word) :
    (s.writeCell a v).mem = s.mem.write a v := rfl
@[simp] theorem State.writeCell_resetLine (s : State) (a v : Word) :
    (s.writeCell a v).resetLine = s.resetLine := rfl
@[simp] theorem State.writeCell_conIn (s : State) (a v : Word) :
    (s.writeCell a v).conIn = s.conIn := rfl
@[simp] theorem State.writeCell_conOut (s : State) (a v : Word) :
    (s.writeCell a v).conOut = s.conOut := rfl

/-! ### consolePut -/

@[simp] theorem State.consolePut_regs (s : State) (cs : List Byte) :
    (s.consolePut cs).regs = s.regs := rfl
@[simp] theorem State.consolePut_pc (s : State) (cs : List Byte) :
    (s.consolePut cs).pc = s.pc := rfl
@[simp] theorem State.consolePut_cond (s : State) (cs : List Byte) :
    (s.consolePut cs).cond = s.cond := rfl
@[simp] theorem State.consolePut_run (s : State) (cs : List Byte) :
    (s.consolePut cs).run = s.run := rfl
@[simp] theorem State.consolePut_mem (s : State) (cs : List Byte) :
    (s.consolePut cs).mem = s.mem := rfl
@[simp] theorem State.consolePut_resetLine (s : State) (cs : List Byte) :
    (s.consolePut cs).resetLine = s.resetLine := rfl
@[simp] theorem State.consolePut_conIn (s : State) (cs : List Byte) :
    (s.consolePut cs).conIn = s.conIn := rfl
@[simp] theorem State.consolePut_conOut (s : State) (cs : List Byte) :
    (s.consolePut cs).conOut = s.conOut ++ cs := rfl

/-! ### advance -/

@[simp] theorem State.advance_regs (s : State) :
    (s.advance).regs = s.regs := rfl
@[simp] theorem State.advance_pc (s : State) :
    (s.advance).pc = s.pc + 1 := rfl
@[simp] theorem State.advance_cond (s : State) :
    (s.advance).cond = s.cond := rfl
@[simp] theorem State.advance_run (s : State) :
    (s.advance).run = s.run := rfl
@[simp] theorem State.advance_mem (s : State) :
    (s.advance).mem = s.mem := rfl
@[simp] theorem State.advance_resetLine (s : State) :
    (s.advance).resetLine = s.resetLine := rfl
@[simp] theorem State.advance_conIn (s : State) :
    (s.advance).conIn = s.conIn := rfl
@[simp] theorem State.advance_conOut (s : State) :
    (s.advance).conOut = s.conOut := rfl

/-! ### link -/

@[simp] theorem State.link_regs (s : State) :
    (s.link).regs = s.regs.set 7 s.pc := rfl
@[simp] theorem State.link_pc (s : State) :
    (s.link).pc = s.pc := rfl
@[simp] theorem State.link_cond (s : State) :
    (s.link).cond = s.cond := rfl
@[simp] theorem State.link_run (s : State) :
    (s.link).run = s.run := rfl
@[simp] theorem State.link_mem (s : State) :
    (s.link).mem = s.mem := rfl
@[simp] theorem State.link_resetLine (s : State) :
    (s.link).resetLine = s.resetLine := rfl
@[simp] theorem State.link_conIn (s : State) :
    (s.link).conIn = s.conIn := rfl
@[simp] theorem State.link_conOut (s : State) :
    (s.link).conOut = s.conOut := rfl

/-! ### trapEntry -/

@[simp] theorem State.trapEntry_regs (s : State) :
    (s.trapEntry).regs = s.regs.set 7 s.pc := rfl
@[simp] theorem State.trapEntry_pc (s : State) :
    (s.trapEntry).pc = s.pc := rfl
@[simp] theorem State.trapEntry_cond (s : State) :
    (s.trapEntry).cond = s.cond := rfl
@[simp] theorem State.trapEntry_run (s : State) :
    (s.trapEntry).run = s.run := rfl
@[simp] theorem State.trapEntry_mem (s : State) :
    (s.trapEntry).mem = s.mem := rfl
@[simp] theorem State.trapEntry_resetLine (s : State) :
    (s.trapEntry).resetLine = s.resetLine := rfl
@[simp] theorem State.trapEntry_conIn (s : State) :
    (s.trapEntry).conIn = s.conIn := rfl
@[simp] theorem State.trapEntry_conOut (s : State) :
    (s.trapEntry).conOut = s.conOut := rfl

/-! ### halt -/

@[simp] theorem State.halt_regs (s : State) :
    (s.halt).regs = s.regs := rfl
@[simp] theorem State.halt_pc (s : State) :
    (s.halt).pc = s.pc := rfl
@[simp] theorem State.halt_cond (s : State) :
    (s.halt).cond = s.cond := rfl
@[simp] theorem State.halt_run (s : State) :
    (s.halt).run = .halted := rfl
@[simp] theorem State.halt_mem (s : State) :
    (s.halt).mem = s.mem := rfl
@[simp] theorem State.halt_resetLine (s : State) :
    (s.halt).resetLine = s.resetLine := rfl
@[simp] theorem State.halt_conIn (s : State) :
    (s.halt).conIn = s.conIn := rfl
@[simp] theorem State.halt_conOut (s : State) :
    (s.halt).conOut = s.conOut := rfl

/-! ### setcc -/

@[simp] theorem State.setcc_regs (s : State) (r : Reg) :
    (s.setcc r).regs = s.regs := rfl
@[simp] theorem State.setcc_pc (s : State) (r : Reg) :
    (s.setcc r).pc = s.pc := rfl
@[simp] theorem State.setcc_cond (s : State) (r : Reg) :
    (s.setcc r).cond = Cond.ofWord (s.getReg r) := rfl
@[simp] theorem State.setcc_run (s : State) (r : Reg) :
    (s.setcc r).run = s.run := rfl
@[simp] theorem State.setcc_mem (s : State) (r : Reg) :
    (s.setcc r).mem = s.mem := rfl
@[simp] theorem State.setcc_resetLine (s : State) (r : Reg) :
    (s.setcc r).resetLine = s.resetLine := rfl
@[simp] theorem State.setcc_conIn (s : State) (r : Reg) :
    (s.setcc r).conIn = s.conIn := rfl
@[simp] theorem State.setcc_conOut (s : State) (r : Reg) :
    (s.setcc r).conOut = s.conOut := rfl

/-! ### setRegCc -/

@[simp] theorem State.setRegCc_regs (s : State) (r : Reg) (v : Word) :
    (s.setRegCc r v).regs = s.regs.set r v := rfl
@[simp] theorem State.setRegCc_pc (s : State) (r : Reg) (v : Word) :
    (s.setRegCc r v).pc = s.pc := rfl
@[simp] theorem State.setRegCc_cond (s : State) (r : Reg) (v : Word) :
    (s.setRegCc r v).cond = Cond.ofWord ((s.setReg r v).getReg r) := rfl
@[simp] theorem State.setRegCc_run (s : State) (r : Reg) (v : Word) :
    (s.setRegCc r v).run = s.run := rfl
@[simp] theorem State.setRegCc_mem (s : State) (r : Reg) (v : Word) :
    (s.setRegCc r v).mem = s.mem := rfl
@[simp] theorem State.setRegCc_resetLine (s : State) (r : Reg) (v : Word) :
    (s.setRegCc r v).resetLine = s.resetLine := rfl
@[simp] theorem State.setRegCc_conIn (s : State) (r : Reg) (v : Word) :
    (s.setRegCc r v).conIn = s.conIn := rfl
@[simp] theorem State.setRegCc_conOut (s : State) (r : Reg) (v : Word) :
    (s.setRegCc r v).conOut = s.conOut := rfl

/-! ### placeFetch -/

@[simp] theorem State.placeFetch_regs (s : State) (w : Word) :
    (s.placeFetch w).regs = s.regs := rfl
@[simp] theorem State.placeFetch_pc (s : State) (w : Word) :
    (s.placeFetch w).pc = s.pc := rfl
@[simp] theorem State.placeFetch_cond (s : State) (w : Word) :
    (s.placeFetch w).cond = s.cond := rfl
@[simp] theorem State.placeFetch_run (s : State) (w : Word) :
    (s.placeFetch w).run = s.run := rfl
@[simp] theorem State.placeFetch_mem (s : State) (w : Word) :
    (s.placeFetch w).mem = s.mem.write s.pc w := rfl
@[simp] theorem State.placeFetch_resetLine (s : State) (w : Word) :
    (s.placeFetch w).resetLine = s.resetLine := rfl
@[simp] theorem State.placeFetch_conIn (s : State) (w : Word) :
    (s.placeFetch w).conIn = s.conIn := rfl
@[simp] theorem State.placeFetch_conOut (s : State) (w : Word) :
    (s.placeFetch w).conOut = s.conOut := rfl

/-! ### offerChar -/

@[simp] theorem State.offerChar_regs (s : State) (c : Byte) :
    (s.offerChar c).regs = s.regs := rfl
@[simp] theorem State.offerChar_pc (s : State) (c : Byte) :
    (s.offerChar c).pc = s.pc := rfl
@[simp] theorem State.offerChar_cond (s : State) (c : Byte) :
    (s.offerChar c).cond = s.cond := rfl
@[simp] theorem State.offerChar_run (s : State) (c : Byte) :
    (s.offerChar c).run = s.run := rfl
@[simp] theorem State.offerChar_mem (s : State) (c : Byte) :
    (s.offerChar c).mem = s.mem := rfl
@[simp] theorem State.offerChar_resetLine (s : State) (c : Byte) :
    (s.offerChar c).resetLine = s.resetLine := rfl
@[simp] theorem State.offerChar_conIn (s : State) (c : Byte) :
    (s.offerChar c).conIn = s.conIn ++ [c] := rfl
@[simp] theorem State.offerChar_conOut (s : State) (c : Byte) :
    (s.offerChar c).conOut = s.conOut := rfl

/-! ### releaseReset -/

@[simp] theorem State.releaseReset_regs (s : State) :
    (s.releaseReset).regs = s.regs := rfl
@[simp] theorem State.releaseReset_pc (s : State) :
    (s.releaseReset).pc = s.pc := rfl
@[simp] theorem State.releaseReset_cond (s : State) :
    (s.releaseReset).cond = s.cond := rfl
@[simp] theorem State.releaseReset_run (s : State) :
    (s.releaseReset).run = s.run := rfl
@[simp] theorem State.releaseReset_mem (s : State) :
    (s.releaseReset).mem = s.mem := rfl
@[simp] theorem State.releaseReset_resetLine (s : State) :
    (s.releaseReset).resetLine = false := rfl
@[simp] theorem State.releaseReset_conIn (s : State) :
    (s.releaseReset).conIn = s.conIn := rfl
@[simp] theorem State.releaseReset_conOut (s : State) :
    (s.releaseReset).conOut = s.conOut := rfl

/-! ### assertReset -/

@[simp] theorem State.assertReset_regs (s : State) (cs : List Byte) :
    (s.assertReset cs).regs = s.regs := rfl
@[simp] theorem State.assertReset_pc (s : State) (cs : List Byte) :
    (s.assertReset cs).pc = Config.entry := rfl
@[simp] theorem State.assertReset_cond (s : State) (cs : List Byte) :
    (s.assertReset cs).cond = .z := rfl
@[simp] theorem State.assertReset_run (s : State) (cs : List Byte) :
    (s.assertReset cs).run = .running := rfl
@[simp] theorem State.assertReset_mem (s : State) (cs : List Byte) :
    (s.assertReset cs).mem = s.mem := rfl
@[simp] theorem State.assertReset_resetLine (s : State) (cs : List Byte) :
    (s.assertReset cs).resetLine = true := rfl
@[simp] theorem State.assertReset_conIn (s : State) (cs : List Byte) :
    (s.assertReset cs).conIn = cs := rfl
@[simp] theorem State.assertReset_conOut (s : State) (cs : List Byte) :
    (s.assertReset cs).conOut = [] := rfl

/-! ### Reads after updates -/

@[simp] theorem State.getReg_setReg (s : State) (r q : Reg) (v : Word) :
    (s.setReg r v).getReg q = if q = r then v else s.getReg q := by
  simp only [State.getReg, State.setReg, Fin.getElem_fin, Vector.getElem_set]
  split <;> split <;> simp_all [Fin.ext_iff]

/-- Registers are read from `regs` alone. -/
theorem State.getReg_congr {s t : State} (h : t.regs = s.regs) (q : Reg) :
    t.getReg q = s.getReg q := by simp [State.getReg, h]

/-- Cells are read from `mem` alone. -/
theorem State.readCell_congr {s t : State} (h : t.mem = s.mem) (a : Word) :
    t.readCell a = s.readCell a := by simp [State.readCell, h]

@[simp] theorem State.readCell_setReg (s : State) (r : Reg) (v : Word) (x : Word) :
    (s.setReg r v).readCell x = s.readCell x := rfl
@[simp] theorem State.getReg_setPc (s : State) (target : Word) (q : Reg) :
    (s.setPc target).getReg q = s.getReg q := rfl
@[simp] theorem State.readCell_setPc (s : State) (target : Word) (x : Word) :
    (s.setPc target).readCell x = s.readCell x := rfl
@[simp] theorem State.getReg_writeCell (s : State) (a v : Word) (q : Reg) :
    (s.writeCell a v).getReg q = s.getReg q := rfl
@[simp] theorem State.getReg_consolePut (s : State) (cs : List Byte) (q : Reg) :
    (s.consolePut cs).getReg q = s.getReg q := rfl
@[simp] theorem State.readCell_consolePut (s : State) (cs : List Byte) (x : Word) :
    (s.consolePut cs).readCell x = s.readCell x := rfl
@[simp] theorem State.getReg_advance (s : State) (q : Reg) :
    (s.advance).getReg q = s.getReg q := rfl
@[simp] theorem State.readCell_advance (s : State) (x : Word) :
    (s.advance).readCell x = s.readCell x := rfl
@[simp] theorem State.readCell_link (s : State) (x : Word) :
    (s.link).readCell x = s.readCell x := rfl
@[simp] theorem State.readCell_trapEntry (s : State) (x : Word) :
    (s.trapEntry).readCell x = s.readCell x := rfl
@[simp] theorem State.getReg_halt (s : State) (q : Reg) :
    (s.halt).getReg q = s.getReg q := rfl
@[simp] theorem State.readCell_halt (s : State) (x : Word) :
    (s.halt).readCell x = s.readCell x := rfl
@[simp] theorem State.getReg_setcc (s : State) (r : Reg) (q : Reg) :
    (s.setcc r).getReg q = s.getReg q := rfl
@[simp] theorem State.readCell_setcc (s : State) (r : Reg) (x : Word) :
    (s.setcc r).readCell x = s.readCell x := rfl
@[simp] theorem State.readCell_setRegCc (s : State) (r : Reg) (v : Word) (x : Word) :
    (s.setRegCc r v).readCell x = s.readCell x := rfl
@[simp] theorem State.getReg_placeFetch (s : State) (w : Word) (q : Reg) :
    (s.placeFetch w).getReg q = s.getReg q := rfl
@[simp] theorem State.getReg_offerChar (s : State) (c : Byte) (q : Reg) :
    (s.offerChar c).getReg q = s.getReg q := rfl
@[simp] theorem State.readCell_offerChar (s : State) (c : Byte) (x : Word) :
    (s.offerChar c).readCell x = s.readCell x := rfl
@[simp] theorem State.getReg_releaseReset (s : State) (q : Reg) :
    (s.releaseReset).getReg q = s.getReg q := rfl
@[simp] theorem State.readCell_releaseReset (s : State) (x : Word) :
    (s.releaseReset).readCell x = s.readCell x := rfl
@[simp] theorem State.getReg_assertReset (s : State) (cs : List Byte) (q : Reg) :
    (s.assertReset cs).getReg q = s.getReg q := rfl
@[simp] theorem State.readCell_assertReset (s : State) (cs : List Byte) (x : Word) :
    (s.assertReset cs).readCell x = s.readCell x := rfl

@[simp] theorem State.getReg_link (s : State) (q : Reg) :
    s.link.getReg q = if q = 7 then s.pc else s.getReg q := State.getReg_setReg ..
@[simp] theorem State.getReg_trapEntry (s : State) (q : Reg) :
    s.trapEntry.getReg q = if q = 7 then s.pc else s.getReg q := State.getReg_setReg ..
@[simp] theorem State.getReg_setRegCc (s : State) (r q : Reg) (v : Word) :
    (s.setRegCc r v).getReg q = if q = r then v else s.getReg q := State.getReg_setReg ..

end Sys2Proof.Machine
end

