-- ==== Sys2Proof/Laws/Memory.lean ====
section
/-! SUPPORT. Memory: a read after a write, and that every memory operation keeps the canonical
form. -/

namespace Sys2Proof.Machine

open Sys2Proof

/-! ### Reads -/

theorem Memory.lookup_insert (m : Memory) (k q : Nat) (v : Word)
    (hk : ∀ c ∈ m, c.1 ≠ k) :
    (m.insert k v).lookup q = if q = k then v else m.lookup q := by
  induction m with
  | nil => simp [Memory.insert, Memory.lookup, eq_comm]
  | cons c m ih =>
    have ih := ih fun d hd => hk d (List.mem_cons_of_mem _ hd)
    have hc : c.1 ≠ k := hk c List.mem_cons_self
    unfold Memory.insert
    split
    · simp [Memory.lookup, eq_comm]
    · simp only [Memory.lookup, ih]
      by_cases h : c.1 = q
      · have : q ≠ k := fun h' => hc (h.trans h')
        simp [h, this]
      · simp [h]

theorem Memory.lookup_erase (m : Memory) (k q : Nat) :
    (m.erase k).lookup q = if q = k then Config.unwrittenCell else m.lookup q := by
  induction m with
  | nil => simp [Memory.erase, Memory.lookup]
  | cons c m ih =>
    unfold Memory.erase at ih ⊢
    by_cases hc : c.1 = k
    · subst hc
      by_cases hq : c.1 = q
      · subst hq; simpa using ih
      · have : q ≠ c.1 := Ne.symm hq
        simpa [Memory.lookup, hq, this] using ih
    · by_cases hq : c.1 = q
      · subst hq; simp [Memory.lookup, hc]
      · simpa [hc, Memory.lookup, hq] using ih

theorem Memory.erase_no_key (m : Memory) (k : Nat) : ∀ c ∈ m.erase k, c.1 ≠ k := by
  intro c hc
  simpa using (List.mem_filter.mp hc).2

/-- A read after a write, of the written cell and of every other, in every memory (20_memory.md R54). -/
theorem Memory.read_write (m : Memory) (a b v : Word) :
    (m.write a v).read b = if b = a then v else m.read b := by
  have hba : b.toNat = a.toNat ↔ b = a := BitVec.toNat_inj
  unfold Memory.write Memory.read
  split
  · next hv => rw [Memory.lookup_erase]; simp [hba, hv]
  · rw [Memory.lookup_insert _ _ _ _ (Memory.erase_no_key m a.toNat), Memory.lookup_erase]
    by_cases h : b = a <;> simp [h, hba]

@[simp] theorem State.readCell_writeCell (s : State) (a b v : Word) :
    (s.writeCell a v).readCell b = if b = a then v else s.readCell b :=
  Memory.read_write ..

@[simp] theorem State.readCell_placeFetch (s : State) (w b : Word) :
    (s.placeFetch w).readCell b = if b = s.pc then w else s.readCell b :=
  Memory.read_write ..

/-! ### The canonical form -/

theorem Memory.mem_insert {m : Memory} {k : Nat} {v : Word} {c : Nat × Word}
    (h : c ∈ m.insert k v) : c = (k, v) ∨ c ∈ m := by
  induction m with
  | nil => simpa [Memory.insert] using h
  | cons d m ih =>
    unfold Memory.insert at h
    split at h
    · simpa using h
    · rcases List.mem_cons.mp h with rfl | h
      · exact .inr List.mem_cons_self
      · exact (ih h).imp id (List.mem_cons_of_mem _)

theorem Memory.wf_erase {m : Memory} (h : m.wf) (k : Nat) : (m.erase k).wf :=
  ⟨h.1.filter _, fun c hc => h.2 c (List.mem_filter.mp hc).1⟩

theorem Memory.rising_insert {m : Memory} {k : Nat} (v : Word)
    (hm : m.Pairwise (fun c d => c.1 < d.1)) (hk : ∀ c ∈ m, c.1 ≠ k) :
    (m.insert k v).Pairwise (fun c d => c.1 < d.1) := by
  induction m with
  | nil => simp [Memory.insert]
  | cons c m ih =>
    have hc : c.1 ≠ k := hk c List.mem_cons_self
    obtain ⟨hcm, hm⟩ := List.pairwise_cons.mp hm
    unfold Memory.insert
    split
    · next hlt =>
      refine List.pairwise_cons.mpr ⟨fun d hd => ?_, List.pairwise_cons.mpr ⟨hcm, hm⟩⟩
      rcases List.mem_cons.mp hd with rfl | hd
      · exact hlt
      · exact hlt.trans (hcm d hd)
    · next hlt =>
      refine List.pairwise_cons.mpr
        ⟨fun d hd => ?_, ih hm fun d hd => hk d (List.mem_cons_of_mem _ hd)⟩
      rcases Memory.mem_insert hd with rfl | hd
      · simp only; omega
      · exact hcm d hd

/-- A write keeps the canonical form. -/
theorem Memory.wf_write {m : Memory} (h : m.wf) (a v : Word) : (m.write a v).wf := by
  have he := Memory.wf_erase h a.toNat
  unfold Memory.write
  split
  · exact he
  · next hv =>
    refine ⟨Memory.rising_insert v he.1 (Memory.erase_no_key m _), fun c hc => ?_⟩
    rcases Memory.mem_insert hc with rfl | hc
    · exact ⟨a.isLt, hv⟩
    · exact he.2 c hc

/-- The load of words keeps the canonical form. -/
theorem Memory.wf_loadWords (ws : List Word) :
    ∀ {m : Memory}, m.wf → ∀ a, (m.loadWords a ws).wf := by
  induction ws with
  | nil => exact fun h _ => h
  | cons w ws ih => exact fun h a => ih (Memory.wf_write h a w) (a + 1)

/-- The load of an image keeps the canonical form. -/
theorem Memory.wf_loadImage {m : Memory} (h : m.wf) (im : Image) : (m.loadImage im).wf :=
  Memory.wf_loadWords im.words h im.origin

/-- The load of image files keeps the canonical form. -/
theorem Memory.wf_loadFiles (fs : List (Option (List Byte))) :
    ∀ {m : Memory}, m.wf → (m.loadFiles fs).1.wf := by
  induction fs with
  | nil => exact fun h => h
  | cons f fs ih =>
    intro m h
    unfold Memory.loadFiles
    split
    · exact h
    · exact ih (Memory.wf_loadImage h _)

end Sys2Proof.Machine
end

