-- ==== Sys2Proof/Laws/Ops.lean ====
section
/-! SUPPORT. One lemma per shared operation that says everything it can do when it answers a next
state, and when it answers none. -/

namespace Sys2Proof.Machine

open Sys2Proof

/-- `Cond.ofWord` by the value's number (40_step_cycle.md R119). -/
theorem Cond.ofWord_cases (v : Word) :
    (Cond.ofWord v = .z ∧ v.toNat = 0) ∨ (Cond.ofWord v = .n ∧ 0x8000 ≤ v.toNat) ∨
      (Cond.ofWord v = .p ∧ 0 < v.toNat ∧ v.toNat < 0x8000) := by
  have hmsb : v.getLsbD 15 = decide (0x8000 ≤ v.toNat) := by
    simpa [BitVec.msb_eq_getLsbD_last] using BitVec.msb_eq_decide v
  have hz : v = 0 ↔ v.toNat = 0 := by
    rw [← BitVec.toNat_inj]; rfl
  unfold Cond.ofWord
  by_cases h0 : v = 0
  · exact .inl ⟨if_pos h0, hz.mp h0⟩
  · have h0' : v.toNat ≠ 0 := fun h => h0 (hz.mpr h)
    rw [if_neg h0, hmsb]
    by_cases hn : 0x8000 ≤ v.toNat
    · exact .inr (.inl ⟨by simp [hn], hn⟩)
    · exact .inr (.inr ⟨by simp [hn], by omega, by omega⟩)

/-- The test of BR, flag by flag (42_control.md R140). -/
theorem State.condHolds_iff (nzp : BitVec 3) (s : State) :
    s.condHolds nzp = true ↔ (nzp.getLsbD 2 = true ∧ s.cond = .n) ∨
      (nzp.getLsbD 1 = true ∧ s.cond = .z) ∨ (nzp.getLsbD 0 = true ∧ s.cond = .p) := by
  unfold State.condHolds
  generalize s.cond = c
  revert nzp
  cases c <;> decide

/-- What a taken input routine does: the next character, into `x[0]`, echoed or not. -/
theorem inputRoutine_cases {echo : Bool} {s t : State} (h : inputRoutine echo s = .next t) :
    ∃ c rest, s.conIn = c :: rest ∧
      t = { s with
        regs := s.regs.set 0 (zext8 c), conIn := rest,
        conOut := if echo then s.conOut ++ [c] else s.conOut } := by
  unfold inputRoutine State.consoleGet at h
  cases hin : s.conIn with
  | nil => simp [hin] at h
  | cons c rest =>
    refine ⟨c, rest, rfl, ?_⟩
    simp only [hin, Host.Outcome.next.injEq] at h
    subst h
    cases echo <;> rfl

/-- An input routine is held exactly when the console offers nothing. -/
theorem inputRoutine_held {echo : Bool} {s : State} (h : s.conIn = []) :
    inputRoutine echo s = .fault .heldForInput := by
  simp [inputRoutine, State.consoleGet, h]

theorem flatMap_range_succ {α : Type} (f : Nat → List α) (n : Nat) :
    (List.range (n + 1)).flatMap f = f 0 ++ (List.range n).flatMap (fun k => f (k + 1)) := by
  rw [List.range_succ_eq_map, List.flatMap_cons, List.flatMap_map]

/-- What the loop of a string routine gives: the characters of the cells before the first one that
stops, if one of the first `reads` does. -/
theorem stringFrom_eq_some {stops : Word → Bool} {chars : Word → List Byte} {m : Memory} :
    ∀ {reads : Nat} {a : Word} {cs : List Byte}, stringFrom stops chars m reads a = some cs ↔
      ∃ n, n < reads ∧ stops (m.read (a + BitVec.ofNat 16 n)) = true ∧
        (∀ k, k < n → stops (m.read (a + BitVec.ofNat 16 k)) = false) ∧
        cs = (List.range n).flatMap (fun k => chars (m.read (a + BitVec.ofNat 16 k))) := by
  intro reads
  induction reads with
  | zero => simp [stringFrom]
  | succ reads ih =>
    intro a cs
    have shift : ∀ k : Nat, a + BitVec.ofNat 16 (k + 1) = a + 1 + BitVec.ofNat 16 k := by
      intro k; rw [Nat.add_comm k 1, BitVec.ofNat_add, BitVec.add_assoc]; rfl
    unfold stringFrom
    by_cases hs : stops (m.read a) = true
    · rw [if_pos hs]
      constructor
      · intro h; cases h
        exact ⟨0, by omega, by simpa using hs, by omega, rfl⟩
      · rintro ⟨n, -, -, hlt, rfl⟩
        cases n with
        | zero => rfl
        | succ n => simpa [hs] using hlt 0 (by omega)
    · rw [if_neg hs, Option.map_eq_some_iff]
      constructor
      · rintro ⟨cs', h, rfl⟩
        obtain ⟨n, hn, hst, hlt, rfl⟩ := ih.mp h
        refine ⟨n + 1, by omega, by rwa [shift], fun k hk => ?_, ?_⟩
        · cases k with
          | zero => simpa using hs
          | succ k => rw [shift]; exact hlt k (by omega)
        · simp only [flatMap_range_succ, shift]
          rw [show a + BitVec.ofNat 16 0 = a from BitVec.add_zero a]
      · rintro ⟨n, hn, hst, hlt, rfl⟩
        cases n with
        | zero => exact absurd (by simpa using hst) hs
        | succ n =>
          refine ⟨_, ih.mpr ⟨n, by omega, by rwa [shift] at hst, fun k hk => ?_, rfl⟩, ?_⟩
          · rw [← shift]; exact hlt (k + 1) (by omega)
          · simp only [flatMap_range_succ, shift]
            rw [show a + BitVec.ofNat 16 0 = a from BitVec.add_zero a]

/-- The loop of a string routine over all of memory ends exactly when some cell stops it
(44_trap.md R180). -/
theorem stringFrom_eq_none {stops : Word → Bool} {chars : Word → List Byte} {m : Memory}
    {a : Word} :
    stringFrom stops chars m Config.memSize a = none ↔ ∀ b : Word, stops (m.read b) = false := by
  constructor
  · intro h b
    by_contra hb
    have hb : stops (m.read b) = true := by simpa using hb
    have hat : stops (m.read (a + BitVec.ofNat 16 (b - a).toNat)) = true := by
      rw [BitVec.ofNat_toNat, BitVec.setWidth_eq, BitVec.add_comm, BitVec.sub_add_cancel]
      exact hb
    have hex : ∃ n : Nat, stops (m.read (a + BitVec.ofNat 16 n)) = true := ⟨_, hat⟩
    classical
    have hlt : Nat.find hex < Config.memSize :=
      Nat.lt_of_le_of_lt (Nat.find_min' hex hat) (b - a).isLt
    have hsome := (stringFrom_eq_some (chars := chars)).mpr
      ⟨Nat.find hex, hlt, Nat.find_spec hex, fun k hk => by simpa using Nat.find_min hex hk, rfl⟩
    rw [h] at hsome
    cases hsome
  · intro h
    cases hc : stringFrom stops chars m Config.memSize a with
    | none => rfl
    | some cs =>
      obtain ⟨n, -, hst, -⟩ := stringFrom_eq_some.mp hc
      simp [h] at hst

/-- What a string routine does when it ends: it puts some characters and does nothing else. -/
theorem stringRoutine_cases {stops : Word → Bool} {chars : Word → List Byte} {s t : State}
    (h : stringRoutine stops chars s = .next t) :
    ∃ cs, stringFrom stops chars s.mem Config.memSize (s.getReg 0) = some cs ∧
      t = s.consolePut cs := by
  unfold stringRoutine at h
  split at h
  · next cs hc => exact ⟨cs, hc, by simpa using h.symm⟩
  · simp at h

/-- A string routine never ends exactly when no cell of memory stops it. -/
theorem stringRoutine_endless {stops : Word → Bool} {chars : Word → List Byte} {s : State} :
    stringRoutine stops chars s = .fault .stringNeverEnds ↔
      ∀ b : Word, stops (s.readCell b) = false := by
  unfold stringRoutine
  split
  · next cs hc =>
    simp only [reduceCtorEq, false_iff]
    intro h
    rw [stringFrom_eq_none.mpr h] at hc
    cases hc
  · next hc => simpa [State.readCell] using stringFrom_eq_none.mp hc

/-- What a step that is taken does: it was enabled, and it ran the decoded instruction. -/
theorem step_cases {s t : State} (h : step s = .next t) :
    s.resetLine = false ∧ s.run = .running ∧ exec (decode (s.readCell s.pc)) s.advance = .next t := by
  unfold step at h
  split at h
  · cases h
  · next hr =>
    split at h
    · cases h
    · next hrun => exact ⟨by simpa using hr, hrun, h⟩

/-- A step of a running machine that is not in reset. -/
theorem step_running {s : State} (hr : s.resetLine = false) (hrun : s.run = .running) :
    step s = exec (decode (s.readCell s.pc)) s.advance := by
  simp [step, hr, hrun, State.fetch]

/-- A write through the load port that is accepted: reset is asserted, and one cell is written. -/
theorem loadPort_cases {a v : Word} {s t : State} (h : s.loadPort a v = .next t) :
    s.resetLine = true ∧ t = s.writeCell a v := by
  unfold State.loadPort at h
  split at h
  · next hr => exact ⟨hr, by simpa using h.symm⟩
  · cases h

end Sys2Proof.Machine
end

