-- ==== Sys2Proof/Laws/PerInstr.lean ====
section
/-! SUPPORT. A statement about every instruction as syntax, one lemma per constructor: the opcode field
of its word is its operation's (30_encoding.md R81, R92). -/

namespace Sys2Proof.Laws.OpcodeField

/-- The operation of an instruction (R92). -/
def opcodeOf : Instr → Opcode
  | .addReg .. | .addImm .. => .add
  | .andReg .. | .andImm .. => .and
  | .not .. => .not
  | .br .. | .nop .. => .br
  | .jmp .. | .ret => .jmp
  | .jsr .. | .jsrr .. => .jsr
  | .ld .. => .ld
  | .ldi .. => .ldi
  | .ldr .. => .ldr
  | .lea .. => .lea
  | .st .. => .st
  | .sti .. => .sti
  | .str .. => .str
  | .res1000 => .res1000
  | .res1101 => .res1101
  | .trap .. | .getc | .out | .puts | .inEcho | .putsp | .halt | .trapUndefined .. => .trap

/-- The word's opcode field selects the instruction's operation. -/
def Statement (i : Instr) : Prop := Opcode.ofBits (field 12 4 (encode i)) = opcodeOf i

/-- What every format has in common: a word with an operation's number in its opcode field. -/
theorem of_field {i : Instr} {o : Opcode} (ho : opcodeOf i = o)
    (h : field 12 4 (encode i) = o.bits) : Statement i := by
  rw [Statement, h, Opcode.ofBits_bits, ho]

theorem addReg (dr sr1 sr2 : Reg) : Statement (.addReg dr sr1 sr2) := of_field rfl <| by
  simp (disch := omega) [opcodeOf, encode, encodeOpr, placeReg, field_place, field_place_beside]
theorem addImm (dr sr1 : Reg) (imm5 : BitVec 5) : Statement (.addImm dr sr1 imm5) := of_field rfl <| by
  simp (disch := omega) [opcodeOf, encode, encodeOpi, placeReg, field_place, field_place_beside]
theorem andReg (dr sr1 sr2 : Reg) : Statement (.andReg dr sr1 sr2) := of_field rfl <| by
  simp (disch := omega) [opcodeOf, encode, encodeOpr, placeReg, field_place, field_place_beside]
theorem andImm (dr sr1 : Reg) (imm5 : BitVec 5) : Statement (.andImm dr sr1 imm5) := of_field rfl <| by
  simp (disch := omega) [opcodeOf, encode, encodeOpi, placeReg, field_place, field_place_beside]
theorem not (dr sr : Reg) : Statement (.not dr sr) := of_field rfl <| by
  simp (disch := omega) [opcodeOf, encode, encodeNot, placeReg, field_place, field_place_beside]
theorem br (nzp : BitVec 3) (off : BitVec 9) : Statement (.br nzp off) := of_field rfl <| by
  simp (disch := omega) [opcodeOf, encode, encodeBr, field_place, field_place_beside]
theorem jmp (base : Reg) : Statement (.jmp base) := of_field rfl <| by
  simp (disch := omega) [opcodeOf, encode, encodeJmp, placeReg, field_place, field_place_beside]
theorem jsr (off : BitVec 11) : Statement (.jsr off) := of_field rfl <| by
  simp (disch := omega) [opcodeOf, encode, encodeJsr, field_place, field_place_beside]
theorem jsrr (base : Reg) : Statement (.jsrr base) := of_field rfl <| by
  simp (disch := omega) [opcodeOf, encode, encodeJsrr, placeReg, field_place, field_place_beside]
theorem ld (dr : Reg) (off : BitVec 9) : Statement (.ld dr off) := of_field rfl <| by
  simp (disch := omega) [opcodeOf, encode, encodePcrel, placeReg, field_place, field_place_beside]
theorem ldi (dr : Reg) (off : BitVec 9) : Statement (.ldi dr off) := of_field rfl <| by
  simp (disch := omega) [opcodeOf, encode, encodePcrel, placeReg, field_place, field_place_beside]
theorem ldr (dr base : Reg) (off : BitVec 6) : Statement (.ldr dr base off) := of_field rfl <| by
  simp (disch := omega) [opcodeOf, encode, encodeBaseoff, placeReg, field_place, field_place_beside]
theorem lea (dr : Reg) (off : BitVec 9) : Statement (.lea dr off) := of_field rfl <| by
  simp (disch := omega) [opcodeOf, encode, encodePcrel, placeReg, field_place, field_place_beside]
theorem st (sr : Reg) (off : BitVec 9) : Statement (.st sr off) := of_field rfl <| by
  simp (disch := omega) [opcodeOf, encode, encodePcrel, placeReg, field_place, field_place_beside]
theorem sti (sr : Reg) (off : BitVec 9) : Statement (.sti sr off) := of_field rfl <| by
  simp (disch := omega) [opcodeOf, encode, encodePcrel, placeReg, field_place, field_place_beside]
theorem str (sr base : Reg) (off : BitVec 6) : Statement (.str sr base off) := of_field rfl <| by
  simp (disch := omega) [opcodeOf, encode, encodeBaseoff, placeReg, field_place, field_place_beside]
theorem trap (v : BitVec 8) : Statement (.trap v) := of_field rfl <| by
  simp (disch := omega) [opcodeOf, encode, encodeTrap, field_place, field_place_beside]
theorem res1000 : Statement .res1000 := of_field rfl (field_place 12 _ (by omega))
theorem res1101 : Statement .res1101 := of_field rfl (field_place 12 _ (by omega))
theorem getc : Statement .getc := trap _
theorem out : Statement .out := trap _
theorem puts : Statement .puts := trap _
theorem inEcho : Statement .inEcho := trap _
theorem putsp : Statement .putsp := trap _
theorem halt : Statement .halt := trap _
theorem trapUndefined (v : BitVec 8) : Statement (.trapUndefined v) := trap v
theorem ret : Statement .ret := jmp 7
theorem nop (off : BitVec 9) : Statement (.nop off) := br 0 off

end Sys2Proof.Laws.OpcodeField
end

