-- ==== Sys2Proof/Tests/Slice0.lean ====
section
/-! SUPPORT. Tests: the checks of WellFormed, a word of every constructor written out from the spec's
encodings, one step of every instruction, and the witnesses that the statements' hypotheses can be met.
The expected values are those of 95_test_vectors.md where a section of it is named, else worked out by
hand from the rule that is named. -/

namespace Sys2Proof.Tests

open Sys2Proof Sys2Proof.Machine

/-- A running state with the given pc, flag, registers, cells and console input. -/
def testState (pc : Word) (c : Cond) (regs : List (Reg × Word)) (cells : List (Word × Word))
    (input : List Byte := []) : State :=
  let s := regs.foldl (fun s r => s.setReg r.1 r.2)
    { State.reset with pc := pc, cond := c, conIn := input }
  cells.foldl (fun s d => s.writeCell d.1 d.2) s

/-- What is seen of the state after one step. -/
def after {α : Type} (s : State) (see : State → α) : Option α := (nextState? (step s)).map see

/-! ### Well-formed instructions (44_trap.md R183) -/

theorem test_wf_refuses_defined_vectors :
    Instr.WellFormed (.trapUndefined 0x20) = false ∧ Instr.WellFormed (.trapUndefined 0x25) = false := by
  decide

theorem test_wf_accepts_undefined_vectors :
    Instr.WellFormed (.trapUndefined 0x1F) = true ∧ Instr.WellFormed (.trapUndefined 0x26) = true := by
  decide

/-! ### Decoding: words written out bit by bit (30_encoding.md R82, R92, R94, R100) -/

theorem test_decode_addReg : decode 0b0001_010_011_0_00_100 = .addReg 2 3 4 := by decide
theorem test_decode_addImm : decode 0b0001_001_000_1_10110 = .addImm 1 0 0b10110 := by decide
theorem test_decode_andReg : decode 0b0101_001_010_0_00_011 = .andReg 1 2 3 := by decide
theorem test_decode_andImm : decode 0b0101_110_101_1_01111 = .andImm 6 5 0b01111 := by decide
theorem test_decode_not : decode 0b1001_101_100_111111 = .not 5 4 := by decide
theorem test_decode_br : decode 0b0000_101_100000001 = .br 0b101 0b100000001 := by decide
theorem test_decode_jmp : decode 0b1100_000_110_000000 = .jmp 6 := by decide
theorem test_decode_jsr : decode 0b0100_1_10000000011 = .jsr 0b10000000011 := by decide
theorem test_decode_jsrr : decode 0b0100_0_00_011_000000 = .jsrr 3 := by decide
theorem test_decode_ld : decode 0b0010_010_000001010 = .ld 2 10 := by decide
theorem test_decode_ldi : decode 0b1010_001_000010011 = .ldi 1 19 := by decide
theorem test_decode_ldr : decode 0b0110_011_001_111110 = .ldr 3 1 0b111110 := by decide
theorem test_decode_lea : decode 0b1110_100_011111111 = .lea 4 255 := by decide
theorem test_decode_st : decode 0b0011_111_000000101 = .st 7 5 := by decide
theorem test_decode_sti : decode 0b1011_110_000000101 = .sti 6 5 := by decide
theorem test_decode_str : decode 0b0111_010_101_000010 = .str 2 5 2 := by decide
theorem test_decode_trap : decodePrimary 0b1111_0000_10100101 = .trap 0b10100101 := by decide
theorem test_decode_res1000 : decode 0b1000_111111111111 = .res1000 := by decide
theorem test_decode_res1101 : decode 0b1101_000100100011 = .res1101 := by decide
theorem test_decode_getc : decode 0b1111_0000_00100000 = .getc := by decide
theorem test_decode_out : decode 0b1111_0000_00100001 = .out := by decide
theorem test_decode_puts : decode 0b1111_0000_00100010 = .puts := by decide
theorem test_decode_in : decode 0b1111_0000_00100011 = .inEcho := by decide
theorem test_decode_putsp : decode 0b1111_0000_00100100 = .putsp := by decide
theorem test_decode_halt : decode 0b1111_1111_00100101 = .halt := by decide
theorem test_decode_trapUndefined : decode 0b1111_0000_10100101 = .trapUndefined 0b10100101 := by
  decide
theorem test_decode_ret : decode 0b1100_000_111_000000 = .ret := by decide
theorem test_decode_nop : decode 0b0000_000_000000101 = .nop 5 := by decide

/-! ### Encoding: the conventional value of the ignored bits (30_encoding.md R84, R100) -/

theorem test_encode_not : encode (.not 5 4) = 0b1001_101_100_111111 := by decide
theorem test_encode_jsrr : encode (.jsrr 3) = 0b0100_0_00_011_000000 := by decide
theorem test_encode_str : encode (.str 2 5 0b111110) = 0b0111_010_101_111110 := by decide

/-! ### Reset (10_state.md R44) -/

theorem test_reset_pc_cond_run :
    State.reset.pc = 0x3000 ∧ State.reset.cond = .z ∧ State.reset.run = .running ∧
      State.reset.conOut = [] ∧ State.reset.mem.wf := by
  decide

/-- 95_test_vectors.md 2.10: a branch on Z is taken as the first step after reset. -/
theorem test_reset_first_branch :
    after (State.reset.withFetchWord 16 0x0E05) (fun t => t.pc) = some 0x3006 := by decide

/-! ### Operate (95_test_vectors.md 2.3) -/

theorem test_addReg_overflow :
    after (testState 0x3000 .z [(3, 0x7FFF), (4, 0x0001)] [(0x3000, 0x14C4)])
      (fun t => (t.getReg 2, t.cond, t.pc)) = some (0x8000, .n, 0x3001) := by decide
theorem test_addReg_source_is_destination :
    after (testState 0x3000 .z [(1, 0x4001)] [(0x3000, 0x1241)])
      (fun t => (t.getReg 1, t.cond)) = some (0x8002, .n) := by decide
theorem test_addImm_negative :
    after (testState 0x3000 .z [(0, 0x0005)] [(0x3000, 0x1236)])
      (fun t => (t.getReg 1, t.cond, t.pc)) = some (0xFFFB, .n, 0x3001) := by decide
theorem test_addImm_smallest :
    after (testState 0x3000 .p [(0, 0x0010)] [(0x3000, 0x1230)])
      (fun t => (t.getReg 1, t.cond)) = some (0x0000, .z) := by decide
theorem test_andReg :
    after (testState 0x3000 .z [(2, 0xF0F0), (3, 0x8FF1)] [(0x3000, 0x5283)])
      (fun t => (t.getReg 1, t.cond)) = some (0x80F0, .n) := by decide
theorem test_andImm_sign_extends :
    after (testState 0x3000 .z [(2, 0x12FF)] [(0x3000, 0x52B0)])
      (fun t => (t.getReg 1, t.cond)) = some (0x12F0, .p) := by decide
theorem test_not :
    after (testState 0x3000 .z [(4, 0x7FFF)] [(0x3000, 0x9B3F)])
      (fun t => (t.getReg 5, t.cond)) = some (0x8000, .n) := by decide
theorem test_not_ignored_bits :
    after (testState 0x3000 .z [(4, 0x00FF)] [(0x3000, 0x9B00)])
      (fun t => (t.getReg 5, t.cond)) = some (0xFF00, .n) := by decide

/-! ### Control (95_test_vectors.md 2.4, 2.5) -/

theorem test_br_negative_offset :
    after (testState 0x3003 .n [] [(0x3003, 0x09FD)]) (fun t => t.pc) = some 0x3001 := by decide
theorem test_br_not_taken :
    after (testState 0x3003 .z [] [(0x3003, 0x09FD)]) (fun t => t.pc) = some 0x3004 := by decide
theorem test_nop_has_no_target :
    after (testState 0x3010 .p [] [(0x3010, 0x0005)]) (fun t => t.pc) = some 0x3011 := by decide
theorem test_jmp_does_not_link :
    after (testState 0x3000 .z [(2, 0x4000), (7, 0x1111)] [(0x3000, 0xC080)])
      (fun t => (t.pc, t.getReg 7)) = some (0x4000, 0x1111) := by decide
theorem test_ret :
    after (testState 0x3007 .z [(7, 0x3002)] [(0x3007, 0xC1C0)]) (fun t => t.pc) = some 0x3002 := by
  decide
theorem test_jsr_smallest :
    after (testState 0x3001 .z [] [(0x3001, 0x4C00)]) (fun t => (t.getReg 7, t.pc)) =
      some (0x3002, 0x2C02) := by decide
theorem test_jsr_wraps :
    after (testState 0xFFFF .z [] [(0xFFFF, 0x4801)]) (fun t => (t.getReg 7, t.pc)) =
      some (0x0000, 0x0001) := by decide
theorem test_jsrr :
    after (testState 0x3010 .z [(3, 0x5000), (7, 0x1234)] [(0x3010, 0x40C0)])
      (fun t => (t.getReg 7, t.pc)) = some (0x3011, 0x5000) := by decide
theorem test_jsrr_r7_falls_through :
    after (testState 0x3010 .z [(7, 0x5000)] [(0x3010, 0x41C0)])
      (fun t => (t.getReg 7, t.pc)) = some (0x3011, 0x3011) := by decide

/-! ### Loads and stores (95_test_vectors.md 2.6, 2.7) -/

theorem test_ld :
    after (testState 0x3002 .z [] [(0x3002, 0x240A), (0x300D, 0x0004)])
      (fun t => (t.getReg 2, t.cond, t.pc)) = some (0x0004, .p, 0x3003) := by decide
theorem test_ld_address_wraps :
    after (testState 0xFFFE .p [(0, 0x0005)] [(0xFFFE, 0x2002)])
      (fun t => (t.getReg 0, t.cond, t.pc)) = some (0x0000, .z, 0xFFFF) := by decide
theorem test_ldi :
    after (testState 0x0050 .z [] [(0x0050, 0xA213), (0x0064, 0x00C8), (0x00C8, 0x1234)])
      (fun t => (t.getReg 1, t.cond, t.pc)) = some (0x1234, .p, 0x0051) := by decide
theorem test_ldi_flag_of_data :
    after (testState 0x3000 .z [] [(0x3000, 0xA201), (0x3002, 0xFFFF), (0xFFFF, 0x8001)])
      (fun t => (t.getReg 1, t.cond)) = some (0x8001, .n) := by decide
theorem test_ldr_base_is_destination :
    after (testState 0x3000 .p [(1, 0x4000)] [(0x3000, 0x6240)])
      (fun t => (t.getReg 1, t.cond)) = some (0x0000, .z) := by decide
theorem test_ldr_wraps_downward :
    after (testState 0x3000 .z [(1, 0x0010)] [(0x3000, 0x6660), (0xFFF0, 0x7FFF)])
      (fun t => (t.getReg 3, t.cond)) = some (0x7FFF, .p) := by decide
theorem test_lea_sets_flag :
    after (testState 0x7F00 .z [] [(0x7F00, 0xE8FF)])
      (fun t => (t.getReg 4, t.cond)) = some (0x8000, .n) := by decide
theorem test_lea :
    after (testState 0x3000 .z [] [(0x3000, 0xE20F), (0x3010, 0x0001)])
      (fun t => (t.getReg 1, t.cond)) = some (0x3010, .p) := by decide
theorem test_st :
    after (testState 0x3008 .p [(0, 0xFFFE)] [(0x3008, 0x3005)])
      (fun t => (t.readCell 0x300E, t.cond, t.pc)) = some (0xFFFE, .p, 0x3009) := by decide
theorem test_st_over_itself :
    after (testState 0x3008 .z [(0, 0xF025)] [(0x3008, 0x31FF)])
      (fun t => (t.readCell 0x3008, t.run, t.pc)) = some (0xF025, .running, 0x3009) := by decide
theorem test_sti :
    after (testState 0x3009 .n [(0, 0xFFFE)] [(0x3009, 0xB005), (0x300F, 0x4000)])
      (fun t => (t.readCell 0x4000, t.readCell 0x300F, t.cond)) = some (0xFFFE, 0x4000, .n) := by
  decide
theorem test_sti_pointer_overwritten :
    after (testState 0x3000 .z [(0, 0x1234)] [(0x3000, 0xB000), (0x3001, 0x3001)])
      (fun t => t.readCell 0x3001) = some 0x1234 := by decide
theorem test_str :
    after (testState 0x3000 .z [(0, 0x00FF), (1, 0x4000)] [(0x3000, 0x7042)])
      (fun t => (t.readCell 0x4002, t.cond)) = some (0x00FF, .z) := by decide
theorem test_str_wraps_downward :
    after (testState 0x3000 .z [(0, 0xCAFE), (1, 0x0000)] [(0x3000, 0x707F)])
      (fun t => t.readCell 0xFFFF) = some 0xCAFE := by decide

/-! ### TRAP (95_test_vectors.md 2.8) -/

theorem test_getc :
    after (testState 0x3003 .p [(0, 0xFFFF)] [(0x3003, 0xF020)] [0x80, 0x31])
      (fun t => (t.getReg 0, t.getReg 7, t.cond, t.conIn, t.conOut)) =
      some (0x0080, 0x3004, .p, [0x31], []) := by decide
theorem test_getc_held :
    step (testState 0x3003 .p [(0, 0xFFFF)] [(0x3003, 0xF020)]) = .fault .heldForInput := by rfl
theorem test_out :
    after (testState 0x3004 .z [(0, 0x1261)] [(0x3004, 0xF021)])
      (fun t => (t.conOut, t.getReg 7, t.getReg 0)) = some ([0x61], 0x3005, 0x1261) := by decide
theorem test_out_pc_wraps :
    after (testState 0xFFFF .z [(0, 0x0041)] [(0xFFFF, 0xF021)])
      (fun t => (t.conOut, t.getReg 7, t.pc)) = some ([0x41], 0x0000, 0x0000) := by decide
theorem test_puts_low_bytes :
    after (testState 0x3000 .z [(0, 0x3008)]
        [(0x3000, 0xF022), (0x3008, 0x4142), (0x3009, 0x0100), (0x300A, 0x0043)])
      (fun t => (t.conOut, t.getReg 7)) = some ([0x42, 0x00, 0x43], 0x3001) := by decide
theorem test_puts_wraps :
    after (testState 0x3000 .z [(0, 0xFFFF)] [(0x3000, 0xF022), (0xFFFF, 0x0041), (0x0000, 0x0042)])
      (fun t => (t.conOut, t.getReg 0)) = some ([0x41, 0x42], 0xFFFF) := by decide
theorem test_in_echoes :
    after (testState 0x3005 .z [(0, 0xFFFF)] [(0x3005, 0xF023)] [0x62])
      (fun t => (t.getReg 0, t.conOut, t.getReg 7)) = some (0x0062, [0x62], 0x3006) := by decide
theorem test_in_high_byte_cleared :
    after (testState 0x3005 .z [(0, 0xFFFF)] [(0x3005, 0xF023)] [0xFF])
      (fun t => (t.getReg 0, t.conOut, t.cond)) = some (0x00FF, [0xFF], .z) := by decide
theorem test_putsp :
    after (testState 0x3000 .z [(0, 0x4000)]
        [(0x3000, 0xF024), (0x4000, 0x6261), (0x4001, 0x4100), (0x4002, 0x6463)])
      (fun t => t.conOut) = some [0x61, 0x62] := by decide
theorem test_putsp_single_character_cell :
    after (testState 0x3000 .z [(0, 0x4000)] [(0x3000, 0xF024), (0x4000, 0x0041), (0x4001, 0x4342)])
      (fun t => (t.conOut, t.getReg 7)) = some ([0x41, 0x42, 0x43], 0x3001) := by decide
theorem test_halt :
    after (testState 0x3004 .p [] [(0x3004, 0xF025)])
      (fun t => (t.run, t.getReg 7, t.pc, t.cond, t.conOut)) =
      some (.halted, 0x3005, 0x3005, .p, []) := by decide
theorem test_halt_no_further_step :
    (nextState? (step (testState 0x3004 .p [] [(0x3004, 0xF025)]))).map step =
      some (.fault .halted) := by rfl
theorem test_trapUndefined :
    after (testState 0x3000 .n [(0, 1), (1, 2), (7, 8)] [(0x3000, 0xF01F)] [0x61])
      (fun t => (t.getReg 0, t.getReg 1, t.getReg 7, t.pc, t.conIn)) =
      some (1, 2, 0x3001, 0x3001, [0x61]) := by decide
theorem test_trap_any_vector :
    nextState? (exec (.trap 0x25) (testState 0x3001 .z [] [])) =
      nextState? (exec .halt (testState 0x3001 .z [] [])) := by decide

/-! ### Reserved opcodes (95_test_vectors.md 2.9) -/

theorem test_res1000 :
    nextState? (step (testState 0x3000 .n [(0, 1), (7, 8)] [(0x3000, 0x8FFF)])) =
      some (testState 0x3001 .n [(0, 1), (7, 8)] [(0x3000, 0x8FFF)]) := by decide
theorem test_res1101_pc_wraps :
    nextState? (step (testState 0xFFFF .p [] [(0xFFFF, 0xD000)])) =
      some (testState 0x0000 .p [] [(0xFFFF, 0xD000)]) := by decide

/-! ### Sign extension (95_test_vectors.md S1, 2.1) -/

theorem test_sext :
    sext (0x1F : BitVec 5) = 0xFFFF ∧ sext (0x0F : BitVec 5) = 0x000F ∧
      sext (0x20 : BitVec 6) = 0xFFE0 ∧ sext (0x100 : BitVec 9) = 0xFF00 ∧
      sext (0x400 : BitVec 11) = 0xFC00 ∧ sext (1 : BitVec 1) = 0xFFFF ∧
      sext (0x8000 : BitVec 16) = 0x8000 := by decide
theorem test_sign_extend_formula :
    signExtendFormula 0x00F0 5 = 0xFFF0 ∧ signExtendFormula 0xABCF 5 = 0xABCF ∧
      signExtendFormula 0x1234 9 = 0x1234 ∧ signExtendFormula 0x8000 16 = 0x8000 := by decide

/-! ### Image load (95_test_vectors.md S8, 2.10) -/

theorem test_image_load_origin_exact :
    let t := (testState 0 .z [] [(0x2FFF, 0x1111), (0x3002, 0x2222)]).boot
      [some [0x30, 0x00, 0x12, 0x34, 0xAB, 0xCD]] []
    (t.readCell 0x3000, t.readCell 0x3001, t.readCell 0x2FFF, t.readCell 0x3002, t.resetLine) =
      (0x1234, 0xABCD, 0x1111, 0x2222, false) := by decide
theorem test_image_load_wraps_and_later_wins :
    let m := (Memory.loadFiles [] [some [0xFF, 0xFF, 0, 1, 0, 2, 0, 3], some [0, 0, 0x33, 0x33]]).1
    (m.read 0xFFFF, m.read 0x0000, m.read 0x0001) = (0x0001, 0x3333, 0x0003) := by decide

/-! ### Memory without a stop cell -/

/-- Every one of the 65,536 cells is `0x0101`. -/
def fullMemory : Memory := (List.range 65536).map (fun k => (k, 0x0101#16))

theorem lookup_map (l : List Nat) (q : Nat) :
    Memory.lookup q (l.map fun k => (k, 0x0101#16)) =
      if q ∈ l then 0x0101#16 else Config.unwrittenCell := by
  induction l with
  | nil => rfl
  | cons k l ih =>
    simp only [List.map_cons, Memory.lookup, ih, List.mem_cons]
    by_cases h : k = q
    · simp [h]
    · simp [h, Ne.symm h]

theorem read_fullMemory (a : Word) : fullMemory.read a = 0x0101 := by
  have : a.toNat ∈ List.range 65536 := List.mem_range.mpr a.isLt
  rw [Memory.read, fullMemory, lookup_map, if_pos this]
  rfl

/-- A state over that memory. -/
def fullState : State := State.resetWith (Vector.replicate 8 1) fullMemory []

theorem readCell_fullState (a : Word) : fullState.readCell a = 0x0101 := by
  rw [State.readCell, fullState, State.resetWith, read_fullMemory]

theorem fullMemory_wf : fullMemory.wf := by
  refine ⟨List.pairwise_map.mpr List.pairwise_lt_range, fun c hc => ?_⟩
  obtain ⟨k, hk, rfl⟩ := List.mem_map.mp hc
  exact ⟨List.mem_range.mp hk, show (0x0101#16) ≠ Config.unwrittenCell by decide⟩

/-! ### Witnesses: states and operands that meet the hypotheses of each statement -/

theorem witness_DecodeGivesBackWhatEncodeWrote :
    Instr.WellFormed (.trapUndefined 0xFF) = true ∧
      Instr.canonical (.trapUndefined 0xFF) = .trapUndefined 0xFF ∧
      Instr.WellFormed (.jmp 6) = true ∧ (∀ v, Instr.jmp 6 ≠ .trap v) ∧ Instr.jmp 6 ≠ .jmp 7 ∧
      (∀ off, Instr.jmp 6 ≠ .br 0 off) ∧ Instr.WellFormed (.trap 0x20) = true := by
  refine ⟨by decide, by decide, by decide, ?_, by decide, ?_, by decide⟩ <;> simp

/-- Each opcode at the lowest and at the highest word it has. -/
theorem witness_WordsDecodeByShiftAndMask :
    ∀ k : Fin 16, (BitVec.ofNat 16 (k * 4096)).toNat / 4096 = k ∧
      (BitVec.ofNat 16 (k * 4096 + 4095)).toNat / 4096 = k ∧
      (BitVec.ofNat 16 (k * 4096)).toNat / 32 % 2 = 0 ∧
      (BitVec.ofNat 16 (k * 4096 + 4095)).toNat / 32 % 2 = 1 ∧
      (BitVec.ofNat 16 (k * 4096)).toNat / 2048 % 2 = 0 ∧
      (BitVec.ofNat 16 (k * 4096 + 4095)).toNat / 2048 % 2 = 1 := by
  decide

/-- Every vector at the border of a clause, with the ignored bits clear and set; RET and NOP at both
ends of their words. -/
theorem witness_RefinedRowsDecodeByTheirOwnBits :
    (∀ v ∈ [0x00, 0x1F, 0x20, 0x21, 0x22, 0x23, 0x24, 0x25, 0x26, 0xFF],
      (BitVec.ofNat 16 (0xF000 + v)).toNat / 4096 = 0xF ∧
      (BitVec.ofNat 16 (0xF000 + v)).toNat % 256 = v ∧
      (BitVec.ofNat 16 (0xFF00 + v)).toNat % 256 = v) ∧
    ((0xC1C0#16).toNat / 4096 = 0xC ∧ (0xC1C0#16).toNat / 64 % 8 = 7) ∧
    ((0xCFFF#16).toNat / 4096 = 0xC ∧ (0xCFFF#16).toNat / 64 % 8 = 7) ∧
    (0x0000#16).toNat / 512 = 0 ∧ (0x01FF#16).toNat / 512 = 0 := by
  decide

theorem witness_IgnoredBitsSelectNothing :
    ((0x14C4#16 &&& 0xF020 = 0x1000 ∧ 0x14C4#16 &&& 0xFFE7 = 0x14DC#16 &&& 0xFFE7) ∧
      (0x5283#16 &&& 0xF020 = 0x5000 ∧ 0x5283#16 &&& 0xFFE7 = 0x529B#16 &&& 0xFFE7)) ∧
    (0x9B3F#16 &&& 0xF000 = 0x9000 ∧ 0x9B3F#16 &&& 0xFFC0 = 0x9B00#16 &&& 0xFFC0) ∧
    (0xC080#16 &&& 0xF000 = 0xC000 ∧ 0xC080#16 &&& 0xF1C0 = 0xCEBF#16 &&& 0xF1C0) ∧
    (0x40C0#16 &&& 0xF800 = 0x4000 ∧ 0x40C0#16 &&& 0xF9C0 = 0x46FF#16 &&& 0xF9C0) ∧
    (0xF025#16 &&& 0xF000 = 0xF000 ∧ 0xF025#16 &&& 0xF0FF = 0xFF25#16 &&& 0xF0FF) ∧
    ((0x8000#16 &&& 0xF000 = 0x8000 ∧ 0x8000#16 &&& 0xF000 = 0x8FFF#16 &&& 0xF000) ∧
      (0xD000#16 &&& 0xF000 = 0xD000 ∧ 0xD000#16 &&& 0xF000 = 0xD123#16 &&& 0xF000)) := by
  decide

theorem witness_StepRunsTheDecodedInstruction :
    let s := testState 0xFFFF .p [] [(0xFFFF, 0x1021)]
    s.resetLine = false ∧ s.run = .running ∧ decode (s.readCell s.pc) = .addImm 0 0 1 := by decide

theorem witness_PlacedWordRunsNext :
    ((16 : Nat) ≤ 16 ∧ State.reset.resetLine = false ∧ State.reset.run = .running) ∧ 16 < 17 := by
  decide

theorem witness_StepIsTakenExactlyWhenEnabled :
    (∃ t, step State.reset = .next t) ∧
      ¬CanStep (testState 0x3000 .z [] [(0x3000, 0xF020)]) := by
  refine ⟨⟨_, rfl⟩, fun h => h.2.2.1 (.inl (by decide)) (by decide)⟩

theorem witness_OnlyHaltTrapHalts :
    (∃ t, step (testState 0x3000 .z [] [(0x3000, 0xF025)]) = .next t ∧ t.run = .halted) ∧
      (∃ t, step State.reset = .next t ∧ t.run = .running) ∧ State.reset.halt.run = .halted := by
  exact ⟨⟨_, rfl, by decide⟩, ⟨_, rfl, by decide⟩, rfl⟩

/-- Both clauses at both ends of their ranges, for the smallest width, a field's width and 16. -/
theorem witness_SextKeepsTheSignedValue :
    (0#1).toNat < 2 ^ (1 - 1) ∧ 2 ^ (1 - 1) ≤ (1#1).toNat ∧
    (0#5).toNat < 2 ^ (5 - 1) ∧ (0x0F#5).toNat < 2 ^ (5 - 1) ∧ 2 ^ (5 - 1) ≤ (0x10#5).toNat ∧
    2 ^ (5 - 1) ≤ (0x1F#5).toNat ∧
    (0x7FFF#16).toNat < 2 ^ (16 - 1) ∧ 2 ^ (16 - 1) ≤ (0x8000#16).toNat := by decide

/-- The widths at the ends of both ranges, which no width shares. -/
theorem witness_SignExtendUtilityFollowsItsContract :
    (1 ≤ 1 ∧ 1 ≤ 16) ∧ (1 ≤ 16 ∧ 16 ≤ 16) ∧ (0 = 0 ∨ 16 < 0) ∧ (17 = 0 ∨ 16 < 17) ∧
      ∀ n : Nat, ¬((1 ≤ n ∧ n ≤ 16) ∧ (n = 0 ∨ 16 < n)) := by
  refine ⟨by decide, by decide, by decide, by decide, by omega⟩

theorem witness_SignExtendUtilityIsIdempotent : (1 ≤ 1 ∧ 1 ≤ 16) ∧ (1 ≤ 16 ∧ 16 ≤ 16) := by decide

theorem witness_OnlySevenWriteAndOnlyBranchReadsFlags :
    (∃ t, step (testState 0x3000 .z [] [(0x3000, 0x103F)]) = .next t ∧
      flagRegOf (decode 0x103F) = some 0) ∧
    (∃ t, step (testState 0x3000 .z [] [(0x3000, 0xF021)]) = .next t ∧
      flagRegOf (decode 0xF021) = none) ∧
    (isBranch .out = false ∧ ∃ t, exec .out State.reset = .next t) := by
  exact ⟨⟨_, rfl, by decide⟩, ⟨_, rfl, by decide⟩, by decide, _, rfl⟩

theorem witness_AddWritesTheModularSum :
    (0x1000#16).toNat / 4096 = 0x1 ∧ (0x1FFF#16).toNat / 4096 = 0x1 := by decide
theorem witness_AndWritesTheBitwiseConjunction :
    Opcode.ofBits (field 12 4 0x5000) = .and ∧ Opcode.ofBits (field 12 4 0x5FFF) = .and := by decide
theorem witness_NotWritesTheComplement :
    Opcode.ofBits (field 12 4 0x9000) = .not ∧ Opcode.ofBits (field 12 4 0x9FFF) = .not := by decide

theorem witness_BranchIsTakenExactlyOnItsFlags :
    Opcode.ofBits (field 12 4 0x0FFF) = .br ∧
    (let nzp := 0b100#3; let s := testState 0 .n [] [];
      (nzp.getLsbD 2 = true ∧ s.cond = .n) ∨ (nzp.getLsbD 1 = true ∧ s.cond = .z) ∨
        (nzp.getLsbD 0 = true ∧ s.cond = .p)) ∧
    (let nzp := 0b010#3; let s := testState 0 .z [] [];
      (nzp.getLsbD 2 = true ∧ s.cond = .n) ∨ (nzp.getLsbD 1 = true ∧ s.cond = .z) ∨
        (nzp.getLsbD 0 = true ∧ s.cond = .p)) ∧
    (let nzp := 0b001#3; let s := testState 0 .p [] [];
      (nzp.getLsbD 2 = true ∧ s.cond = .n) ∨ (nzp.getLsbD 1 = true ∧ s.cond = .z) ∨
        (nzp.getLsbD 0 = true ∧ s.cond = .p)) ∧
    (let nzp := 0b011#3; let s := testState 0 .n [] [];
      ¬((nzp.getLsbD 2 = true ∧ s.cond = .n) ∨ (nzp.getLsbD 1 = true ∧ s.cond = .z) ∨
        (nzp.getLsbD 0 = true ∧ s.cond = .p))) := by
  decide

/-- A running state over any word, and words at both ends of each of the three ranges. -/
theorem witness_NopAndReservedOnlyAdvance :
    (∀ w : Word, let s := State.reset.placeFetch w;
      s.resetLine = false ∧ s.run = .running ∧ s.readCell s.pc = w) ∧
    (0x8000#16).toNat / 4096 = 0x8 ∧ (0x8FFF#16).toNat / 4096 = 0x8 ∧
    (0xD000#16).toNat / 4096 = 0xD ∧ (0xDFFF#16).toNat / 4096 = 0xD ∧
    (0x0000#16).toNat ≤ 0x01FF ∧ (0x01FF#16).toNat ≤ 0x01FF := by
  refine ⟨fun w => ⟨rfl, rfl, by simp⟩, by decide⟩

theorem witness_JmpGoesToTheBaseRegister :
    Opcode.ofBits (field 12 4 0xC000) = .jmp ∧ Opcode.ofBits (field 12 4 0xCFFF) = .jmp := by decide

/-- The round trip of 95_test_vectors.md S4. -/
theorem witness_RetReturnsToTheInstructionAfterJsr :
    let s := testState 0x3001 .z [] [(0x3001, 0x4803), (0x3005, 0xC1C0)]
    s.resetLine = false ∧ s.run = .running ∧ decode (s.readCell s.pc) = .jsr 3 ∧
    ∃ t, step s = .next t ∧ t.getReg 7 = 0x3002 ∧ decode (t.readCell t.pc) = .ret ∧
      ∃ u, step t = .next u ∧ u.pc = 0x3002 := by
  exact ⟨by decide, by decide, by decide, _, rfl, by decide, by decide, _, rfl, by decide⟩

theorem witness_JsrLinksAndJumps :
    Opcode.ofBits (field 12 4 0x4FFF) = .jsr ∧ (0x4FFF#16).toNat / 2048 % 2 = 1 ∧
      (0x4800#16).toNat / 2048 % 2 = 1 := by decide
theorem witness_JsrrLinksBeforeItReadsTheBase :
    Opcode.ofBits (field 12 4 0x41C0) = .jsr ∧ (0x41C0#16).toNat / 2048 % 2 = 0 ∧
      (0x47FF#16).toNat / 2048 % 2 = 0 := by decide
theorem witness_LdLoadsThePcRelativeCell :
    Opcode.ofBits (field 12 4 0x2000) = .ld ∧ Opcode.ofBits (field 12 4 0x2FFF) = .ld := by decide
theorem witness_LdiLoadsThroughThePointerCell :
    Opcode.ofBits (field 12 4 0xA000) = .ldi ∧ Opcode.ofBits (field 12 4 0xAFFF) = .ldi := by decide
theorem witness_LdrLoadsTheBaseOffsetCell :
    Opcode.ofBits (field 12 4 0x6000) = .ldr ∧ Opcode.ofBits (field 12 4 0x6FFF) = .ldr := by decide
theorem witness_LeaWritesTheAddressAndItsFlag :
    Opcode.ofBits (field 12 4 0xE000) = .lea ∧ Opcode.ofBits (field 12 4 0xEFFF) = .lea := by decide
theorem witness_StStoresThePcRelativeCell :
    Opcode.ofBits (field 12 4 0x3000) = .st ∧ Opcode.ofBits (field 12 4 0x3FFF) = .st := by decide
theorem witness_StiStoresThroughThePointerCell :
    Opcode.ofBits (field 12 4 0xB000) = .sti ∧ Opcode.ofBits (field 12 4 0xBFFF) = .sti := by decide
theorem witness_StrStoresTheBaseOffsetCell :
    Opcode.ofBits (field 12 4 0x7000) = .str ∧ Opcode.ofBits (field 12 4 0x7FFF) = .str := by decide

theorem witness_EveryTrapLinksAndStaysInLine :
    ∀ i ∈ [Instr.trap 0x20, .trap 0xFF, .getc, .out, .puts, .inEcho, .putsp, .halt,
        .trapUndefined 0x00],
      isTrap i = true ∧ (nextState? (exec i (testState 0x3001 .n [] [] [0x61]))).isSome = true := by
  decide

/-- A character, the last one, and none. -/
theorem witness_GetcReadsOneCharacterWithoutEcho :
    (Instr.getc = .getc ∨ Instr.getc = .trap 0x20) ∧
    (Instr.trap 0x20 = .getc ∨ Instr.trap 0x20 = .trap 0x20) ∧
    (testState 0 .z [] [] [0x80]).conIn = 0x80 :: [] ∧
    (testState 0 .z [] [] [0x00, 0x61]).conIn = 0x00 :: [0x61] ∧ (testState 0 .z [] []).conIn = [] := by
  decide

theorem witness_OutPutsTheLowByte :
    (Instr.out = .out ∨ Instr.out = .trap 0x21) ∧
      (Instr.trap 0x21 = .out ∨ Instr.trap 0x21 = .trap 0x21) := by decide

theorem witness_InReadsOneCharacterAndEchoesIt :
    (Instr.inEcho = .inEcho ∨ Instr.inEcho = .trap 0x23) ∧
    (Instr.trap 0x23 = .inEcho ∨ Instr.trap 0x23 = .trap 0x23) ∧
    (testState 0 .z [] [] [0xFF]).conIn = 0xFF :: [] ∧ (testState 0 .z [] []).conIn = [] := by
  decide

theorem witness_PutsPutsTheCellsBeforeTheZeroCell :
    (Instr.puts = .puts ∨ Instr.puts = .trap 0x22) ∧
    (Instr.trap 0x22 = .puts ∨ Instr.trap 0x22 = .trap 0x22) ∧
    (let s := testState 0x3001 .z [(0, 0x3008)] [];
      s.readCell (s.getReg 0 + BitVec.ofNat 16 0) = 0) ∧
    (let s := testState 0x3001 .z [(0, 0xFFFF)] [(0xFFFF, 0x4100)];
      s.readCell (s.getReg 0 + BitVec.ofNat 16 1) = 0 ∧
        ∀ k, k < 1 → s.readCell (s.getReg 0 + BitVec.ofNat 16 k) ≠ 0) := by
  decide

/-- The longest string: 65,535 cells before the one that stops, the address wrapping. -/
theorem witness_PutsPutsTheCellsBeforeTheZeroCell_longest :
    let s := fullState.writeCell 0 0
    65535 < 65536 ∧ s.readCell (s.getReg 0 + BitVec.ofNat 16 65535) = 0 ∧
      ∀ k, k < 65535 → s.readCell (s.getReg 0 + BitVec.ofNat 16 k) ≠ 0 := by
  intro s
  have hs : ∀ a : Word, s.readCell a = if a = 0 then 0 else 0x0101 := fun a => by
    simp only [s, State.readCell_writeCell, readCell_fullState]
  have hr : s.getReg 0 = 1 := by decide
  refine ⟨by omega, by rw [hs, hr]; decide, fun k hk => ?_⟩
  rw [hs, hr, if_neg]
  · decide
  · intro h
    have := congrArg BitVec.toNat h
    rw [BitVec.toNat_add, BitVec.toNat_ofNat] at this
    change (1 + k % 65536) % 65536 = 0 at this
    omega

theorem witness_PutsPutsTheCellsBeforeTheZeroCell_endless :
    ¬PutsCanStop fullState := by
  rintro ⟨a, h⟩
  rw [readCell_fullState] at h
  revert h
  decide

theorem witness_PutspPutsBothBytesBeforeTheZeroLowByte :
    (Instr.putsp = .putsp ∨ Instr.putsp = .trap 0x24) ∧
    (Instr.trap 0x24 = .putsp ∨ Instr.trap 0x24 = .trap 0x24) ∧
    (let s := testState 0x3001 .z [(0, 0x3008)] [(0x3008, 0x4100)];
      (s.readCell (s.getReg 0 + BitVec.ofNat 16 0)).toNat % 256 = 0) ∧
    (let s := testState 0x3001 .z [(0, 0xFFFF)] [(0xFFFF, 0x4241), (0x0000, 0x0043), (1, 0xFF00)];
      (s.readCell (s.getReg 0 + BitVec.ofNat 16 2)).toNat % 256 = 0 ∧
        ∀ k, k < 2 → (s.readCell (s.getReg 0 + BitVec.ofNat 16 k)).toNat % 256 ≠ 0) := by
  decide

theorem witness_PutspPutsBothBytesBeforeTheZeroLowByte_endless :
    ¬PutspCanStop fullState := by
  rintro ⟨a, h⟩
  rw [readCell_fullState] at h
  revert h
  decide

theorem witness_HaltHaltsAndPutsNothing :
    (Instr.halt = .halt ∨ Instr.halt = .trap 0x25) ∧
      (Instr.trap 0x25 = .halt ∨ Instr.trap 0x25 = .trap 0x25) := by decide

/-- Both ranges of undefined vectors at both their ends, in both spellings. -/
theorem witness_UndefinedVectorOnlyLinks :
    ∀ v ∈ [0x00#8, 0x1F, 0x26, 0xFF],
      (v.toNat ≤ 0x1F ∨ 0x26 ≤ v.toNat) ∧
        (Instr.trapUndefined v = .trapUndefined v ∨ Instr.trapUndefined v = .trap v) ∧
        (Instr.trap v = .trapUndefined v ∨ Instr.trap v = .trap v) := by
  decide

theorem witness_RegistersReadAndWrittenAsTabulated :
    (∃ t, exec (.addReg 2 3 4) (testState 0x3001 .z [(3, 1), (4, 2)] []) = .next t) ∧
      (2 : Reg) ∉ readsOf (.addReg 2 3 4) ∧ (2 : Reg) ∈ writesOf (.addReg 2 3 4) ∧
      (5 : Reg) ∉ readsOf (.addReg 2 3 4) ∧ (5 : Reg) ∉ writesOf (.addReg 2 3 4) := by
  exact ⟨⟨_, rfl⟩, by decide, by decide, by decide, by decide⟩

theorem witness_OnlyStoresChangeMemory :
    (∃ t, step State.reset = .next t) ∧
      isStore (decode (State.reset.readCell State.reset.pc)) = false ∧
      State.reset.resetLine = false ∧ (State.reset.assertReset []).resetLine = true := by
  exact ⟨⟨_, rfl⟩, by decide, by decide, by decide⟩

/-- 95_test_vectors.md 2.7: ST R3,+0 at 0xFFFF. -/
theorem witness_StoreIsSeenByTheNextFetch :
    let s := testState 0xFFFF .z [(3, 0xBEEF)] [(0xFFFF, 0x3600)]
    s.resetLine = false ∧ s.run = .running ∧ decode (s.readCell s.pc) = .st 3 0 := by decide

theorem witness_EveryStepKeepsMemoryCanonical :
    let s := testState 0x3000 .z [(0, 0x5000), (1, 0x4000)] [(0x3000, 0x7042), (0x4002, 0x0001)]
    s.Inv ∧ ∃ t, step s = .next t ∧ t.mem = [(0x3000, 0x7042), (0x4002, 0x5000)] := by
  refine ⟨by simp only [State.Inv]; decide, _, rfl, by decide⟩

theorem witness_CanonicalMemoriesReadingAlikeAreEqual :
    fullMemory.wf ∧ fullMemory.wf ∧ ∀ a : Word, fullMemory.read a = fullMemory.read a :=
  ⟨fullMemory_wf, fullMemory_wf, fun _ => rfl⟩

/-- The hypothesis of three statements: a step of a TRAP that takes and puts, one of a TRAP that
neither takes nor puts, one that is no TRAP. -/
theorem witness_ConsoleTrafficIsByTrapsAndInOrder :
    (∃ t, step (testState 0x3000 .z [] [(0x3000, 0xF023)] [0x61, 0x62]) = .next t ∧
      t.conIn = [0x62] ∧ t.conOut = [0x61]) ∧
    (∃ t, step (testState 0x3000 .z [] [(0x3000, 0xF000)] [0x61]) = .next t ∧ t.conIn = [0x61]) ∧
    (∃ t, step (testState 0x3000 .z [] [(0x3000, 0x1021)] [0x61]) = .next t) ∧
    isTrap (decode 0x1021) = false := by
  exact ⟨⟨_, rfl, by decide, by decide⟩, ⟨_, rfl, by decide⟩, ⟨_, rfl⟩, by decide⟩

theorem witness_OutputHistoryIsNeverRead :
    ∃ t, step (testState 0x3000 .z [(0, 0x0041)] [(0x3000, 0xF021)]) = .next t ∧ t.conOut = [0x41] := by
  exact ⟨_, rfl, by decide⟩

theorem witness_LaterInputNeverChangesAStep :
    (∃ t, step (testState 0x3000 .z [] [(0x3000, 0xF020)] [0x61]) = .next t) ∧
      step (testState 0x3000 .z [] [(0x3000, 0xF020)]) = .fault .heldForInput ∧
      step (testState 0x3000 .z [] [(0x3000, 0xF023)]) = .fault .heldForInput := by
  exact ⟨⟨_, rfl⟩, rfl, rfl⟩

/-- The first and the last word of an image that wraps; a cell beside it; in an image one word longer
than memory, the last word, which no later one overwrites. -/
theorem witness_ImageLoadIsOriginExact :
    (let im : Image := { origin := 0xFFFF, words := [1, 2, 3] };
      (∀ i, i = 0 ∨ i = 2 → i < im.words.length ∧
        ∀ j, i < j → j < im.words.length → i % 65536 ≠ j % 65536) ∧
      ∀ i, i < im.words.length → (2 : Word) ≠ im.origin + BitVec.ofNat 16 i) ∧
    (let im : Image := { origin := 0x3000, words := List.replicate 65537 7 };
      65536 < im.words.length ∧
        ∀ j, 65536 < j → j < im.words.length → 65536 % 65536 ≠ j % 65536) := by
  refine ⟨⟨?_, by decide⟩, by simp only [List.length_replicate]; omega, ?_⟩
  · rintro i (rfl | rfl) <;> refine ⟨by decide, fun j hj hl => ?_⟩ <;>
      simp only [List.length_cons, List.length_nil] at hl <;> omega
  · intro j hj hl
    rw [List.length_replicate] at hl
    omega

/-- An odd last byte: one word from three bytes after the origin; index 0 is in both ranges. -/
theorem witness_ImageFileIsBigEndianWholeWords :
    parseImage (some [0x30, 0x00, 0x12, 0x34, 0xAB]) =
        .ok { origin := 0x3000, words := [0x1234] } ∧
      0 < ([0x1234] : List Word).length ∧ 2 * 0 + 1 < ([0x12, 0x34, 0xAB] : List Byte).length := by
  exact ⟨by rfl, by decide, by decide⟩

theorem witness_BootLoadsInOrderAndStartsOnlyOnSuccess :
    (([some [0x30, 0x00, 0x12, 0x34]] : List (Option (List Byte))).map parseImage =
      [{ origin := 0x3000, words := [0x1234] }].map Except.ok) ∧
    ((([] : List (Option (List Byte))).map parseImage) = ([] : List Image).map Except.ok) ∧
    (∃ f ∈ ([none, some [0x30, 0x00]] : List (Option (List Byte))), ∃ e, parseImage f = .error e) := by
  exact ⟨by rfl, by rfl, none, by simp, .notOpenable, rfl⟩

end Sys2Proof.Tests
end

/-! ## What an instruction does

One inversion lemma for `exec`: an instruction that is taken acts as one of eight operations, and
acts so on every state that agrees on what it reads. What a step writes, leaves alone and depends on
follows from it. -/

section
namespace Sys2Proof.Machine

open Sys2Proof

/-! ### Small lemmas about the model's operations -/

/-- The trap vector map read back: only a routine's own vector selects it (30_encoding.md R94). -/
theorem eq_vector_of_ofVector {v : BitVec 8} {r : TrapRoutine}
    (h : TrapRoutine.ofVector v = some r) : v = r.vector := by
  revert v; cases r <;> decide

/-- The decoder never answers the generic TRAP, but the row of its vector (log entry 8). -/
theorem decode_ne_trap (w : Word) (v : BitVec 8) : decode w ≠ .trap v := by
  unfold decode Instr.canonical canonicalTrap
  repeat' split
  all_goals exact Instr.noConfusion

/-- The flag of a value is the one its number gives (40_step_cycle.md R119). -/
theorem flagOf_ofWord (v : Word) : FlagOf v (Cond.ofWord v) := by
  unfold FlagOf
  rcases Cond.ofWord_cases v with ⟨hc, hv⟩ | ⟨hc, hv⟩ | ⟨hc, hv⟩ <;> simp [hc] <;> omega

@[simp] theorem State.consolePut_nil (s : State) : s.consolePut [] = s := by
  simp [State.consolePut]

/-- The console's next character put into `x[0]` as a word: GETC and IN after their link. -/
def State.takeChar (c : Byte) (s : State) : State :=
  State.setReg 0 (zext8 c) { s with conIn := s.conIn.tail }

@[simp] theorem State.getReg_takeChar (s : State) (c : Byte) (q : Reg) :
    (s.takeChar c).getReg q = if q = 0 then zext8 c else s.getReg q := State.getReg_setReg ..

/-- An input routine that has a character takes it. -/
theorem inputRoutine_next {echo : Bool} {s : State} {c : Byte} {rest : List Byte}
    (h : s.conIn = c :: rest) :
    inputRoutine echo s = .next ((s.takeChar c).consolePut (if echo then [c] else [])) := by
  cases echo <;> simp [inputRoutine, State.consoleGet, State.takeChar, h]

/-- A string routine that ends puts the string. -/
theorem stringRoutine_next {stops : Word → Bool} {chars : Word → List Byte} {s : State}
    {cs : List Byte} (h : stringFrom stops chars s.mem Config.memSize (s.getReg 0) = some cs) :
    stringRoutine stops chars s = .next (s.consolePut cs) := by
  simp [stringRoutine, h]

/-! ### Effects and agreement -/

/-- What an instruction taken in `s` may do, as a function that can be applied to other states too.
Each constructor says for which instructions it is: the row of the register table
(10_state.md R22), the flag register (R30), store or not, TRAP or not. -/
inductive Effect (i : Instr) (s : State) : (State → State) → Prop
  | stay (hf : flagRegOf i = none) (hw : writesOf i = []) : Effect i s id
  | jump (target : Word) (hf : flagRegOf i = none) (hw : writesOf i = []) :
      Effect i s (State.setPc target)
  | call (target : Word) (hf : flagRegOf i = none) (hw : writesOf i = [7]) :
      Effect i s (fun u => u.link.setPc target)
  | writeReg {dr : Reg} (v : Word) (hf : flagRegOf i = some dr) (hw : writesOf i = [dr]) :
      Effect i s (State.setRegCc dr v)
  | writeCell (a v : Word) (hf : flagRegOf i = none) (hw : writesOf i = [])
      (hs : isStore i = true) : Effect i s (State.writeCell a v)
  | takeChar (c : Byte) {rest : List Byte} (put : List Byte) (hin : s.conIn = c :: rest)
      (hf : flagRegOf i = none) (hw : writesOf i = [7, 0]) (ht : isTrap i = true) :
      Effect i s (fun u => (u.trapEntry.takeChar c).consolePut put)
  | putChars (put : List Byte) (hf : flagRegOf i = none) (hw : writesOf i = [7])
      (ht : isTrap i = true) : Effect i s (fun u => u.trapEntry.consolePut put)
  | halt (hi : i = .halt ∨ i = .trap 0x25) (hf : flagRegOf i = none) (hw : writesOf i = [7]) :
      Effect i s (fun u => u.trapEntry.halt)

/-- Another state holds what the instruction reads: the registers of its row (10_state.md R22), pc,
memory, `cond` for a branch (R30), and the console's input so far (R40). -/
structure AgreesFor (i : Instr) (s s' : State) : Prop where
  regs : ∀ r ∈ readsOf i, s'.getReg r = s.getReg r
  pc : s'.pc = s.pc
  mem : s'.mem = s.mem
  cond : isBranch i = true → s'.cond = s.cond
  conIn : ∃ later, s'.conIn = s.conIn ++ later

theorem AgreesFor.refl (i : Instr) (s : State) : AgreesFor i s s :=
  ⟨fun _ _ => rfl, rfl, rfl, fun _ => rfl, [], by simp⟩

/-- The instruction has one of the effects in `s`, and the same one in every agreeing state. -/
def ActsAlike (i : Instr) (s : State) : Prop :=
  ∃ u, Effect i s u ∧ ∀ s', AgreesFor i s s' → exec i s' = .next (u s')

/-! ### The trap routines, for any spelling of the instruction -/

section
variable {i : Instr} {s t : State} (hf : flagRegOf i = none) (ht : isTrap i = true)
include hf ht

theorem actsAlike_of_inputRoutine {echo : Bool} (hw : writesOf i = [7, 0])
    (hexec : ∀ u, exec i u = inputRoutine echo u.trapEntry) (h : exec i s = .next t) :
    ActsAlike i s := by
  obtain ⟨c, rest, hin, -⟩ := inputRoutine_cases ((hexec s).symm.trans h)
  refine ⟨_, .takeChar c (if echo then [c] else []) hin hf hw ht, fun s' ha => ?_⟩
  obtain ⟨later, hlater⟩ := ha.conIn
  have hin' : s'.trapEntry.conIn = c :: (rest ++ later) := by
    simp [hlater, show s.conIn = c :: rest from hin]
  exact (hexec s').trans (inputRoutine_next hin')

theorem actsAlike_of_stringRoutine {stops : Word → Bool} {chars : Word → List Byte}
    (hr : 0 ∈ readsOf i) (hw : writesOf i = [7])
    (hexec : ∀ u, exec i u = stringRoutine stops chars u.trapEntry) (h : exec i s = .next t) :
    ActsAlike i s := by
  obtain ⟨cs, hcs, -⟩ := stringRoutine_cases ((hexec s).symm.trans h)
  refine ⟨_, .putChars cs hf hw ht, fun s' ha => (hexec s').trans (stringRoutine_next ?_)⟩
  simpa [ha.mem, ha.regs 0 hr] using hcs

theorem actsAlike_of_outRoutine (hr : 0 ∈ readsOf i) (hw : writesOf i = [7])
    (hexec : ∀ u, exec i u = outRoutine u.trapEntry) : ActsAlike i s :=
  ⟨_, .putChars [lowByte (s.getReg 0)] hf hw ht,
    fun s' ha => by simp [hexec, outRoutine, ha.regs 0 hr]⟩

theorem actsAlike_of_noRoutine (hw : writesOf i = [7])
    (hexec : ∀ u, exec i u = .next u.trapEntry) : ActsAlike i s :=
  ⟨_, .putChars [] hf hw ht, fun s' _ => by simp [hexec]⟩

end

/-- TRAP with any vector acts as the routine of its vector (44_trap.md R170). -/
theorem trap_actsAlike {v : BitVec 8} {s t : State} (h : exec (.trap v) s = .next t) :
    ActsAlike (.trap v) s := by
  cases hr : TrapRoutine.ofVector v with
  | none =>
    have hv : ¬(v = 0x20 ∨ v = 0x23) := by
      rintro (rfl | rfl) <;> simp [TrapRoutine.ofVector] at hr
    exact actsAlike_of_noRoutine rfl rfl (if_neg hv)
      (fun u => by simp [exec, execTrap, trapDispatch, hr])
  | some r =>
    obtain rfl := eq_vector_of_ofVector hr
    cases r with
    | getc => exact actsAlike_of_inputRoutine rfl rfl rfl (fun _ => rfl) h
    | inEcho => exact actsAlike_of_inputRoutine rfl rfl rfl (fun _ => rfl) h
    | out => exact actsAlike_of_outRoutine rfl rfl (by decide) rfl (fun _ => rfl)
    | puts => exact actsAlike_of_stringRoutine rfl rfl (by decide) rfl (fun _ => rfl) h
    | putsp => exact actsAlike_of_stringRoutine rfl rfl (by decide) rfl (fun _ => rfl) h
    | halt => exact ⟨_, .halt (.inr rfl) rfl rfl, fun _ _ => rfl⟩

/-! ### Every instruction -/

/-- What an instruction that is taken does, and on what that depends. -/
theorem exec_actsAlike {i : Instr} {s t : State} (h : exec i s = .next t) : ActsAlike i s := by
  cases i with
  | addReg dr sr1 sr2 =>
    exact ⟨_, .writeReg (s.getReg sr1 + s.getReg sr2) rfl rfl,
      fun s' ha => by
        simp [exec, execAddReg, ha.regs sr1 (.head _), ha.regs sr2 (.tail _ (.head _))]⟩
  | addImm dr sr1 imm5 =>
    exact ⟨_, .writeReg (s.getReg sr1 + sext imm5) rfl rfl,
      fun s' ha => by simp [exec, execAddImm, ha.regs sr1 (.head _)]⟩
  | andReg dr sr1 sr2 =>
    exact ⟨_, .writeReg (s.getReg sr1 &&& s.getReg sr2) rfl rfl,
      fun s' ha => by
        simp [exec, execAndReg, ha.regs sr1 (.head _), ha.regs sr2 (.tail _ (.head _))]⟩
  | andImm dr sr1 imm5 =>
    exact ⟨_, .writeReg (s.getReg sr1 &&& sext imm5) rfl rfl,
      fun s' ha => by simp [exec, execAndImm, ha.regs sr1 (.head _)]⟩
  | not dr sr =>
    exact ⟨_, .writeReg (~~~ s.getReg sr) rfl rfl,
      fun s' ha => by simp [exec, execNot, ha.regs sr (.head _)]⟩
  | br nzp off =>
    have hcond : ∀ s', AgreesFor (.br nzp off) s s' → s'.condHolds nzp = s.condHolds nzp :=
      fun s' ha => by simp [State.condHolds, ha.cond rfl]
    by_cases hb : s.condHolds nzp = true
    · exact ⟨_, .jump (branchTarget off s) rfl rfl,
        fun s' ha => by simp [exec, execBr, branchTarget, hcond s' ha, hb, ha.pc]⟩
    · exact ⟨_, .stay rfl rfl, fun s' ha => by simp [exec, execBr, hcond s' ha, hb]⟩
  | jmp base =>
    exact ⟨_, .jump (s.getReg base) rfl rfl,
      fun s' ha => by simp [exec, execJmp, ha.regs base (.head _)]⟩
  | jsr off =>
    exact ⟨_, .call (jsrTarget off s) rfl rfl,
      fun s' ha => by simp [exec, execJsr, jsrTarget, ha.pc]⟩
  | jsrr base =>
    exact ⟨_, .call (s.link.getReg base) rfl rfl,
      fun s' ha => by simp [exec, execJsrr, ha.regs base (.head _), ha.pc]⟩
  | ld dr off =>
    exact ⟨_, .writeReg (s.readCell (eaPcRel off s)) rfl rfl,
      fun s' ha => by simp [exec, execLd, eaPcRel, ha.pc, State.readCell_congr ha.mem]⟩
  | ldi dr off =>
    exact ⟨_, .writeReg (s.readCell (eaIndirect off s)) rfl rfl,
      fun s' ha => by
        simp [exec, execLdi, eaIndirect, eaPcRel, ha.pc, State.readCell_congr ha.mem]⟩
  | ldr dr base off =>
    exact ⟨_, .writeReg (s.readCell (eaBase base off s)) rfl rfl,
      fun s' ha => by
        simp [exec, execLdr, eaBase, ha.regs base (.head _), State.readCell_congr ha.mem]⟩
  | lea dr off =>
    exact ⟨_, .writeReg (eaPcRel off s) rfl rfl,
      fun s' ha => by simp [exec, execLea, eaPcRel, ha.pc]⟩
  | st sr off =>
    exact ⟨_, .writeCell (eaPcRel off s) (s.getReg sr) rfl rfl rfl,
      fun s' ha => by simp [exec, execSt, eaPcRel, ha.regs sr (.head _), ha.pc]⟩
  | sti sr off =>
    exact ⟨_, .writeCell (eaIndirect off s) (s.getReg sr) rfl rfl rfl, fun s' ha => by
      simp [exec, execSti, eaIndirect, eaPcRel, ha.regs sr (.head _), ha.pc,
        State.readCell_congr ha.mem]⟩
  | str sr base off =>
    exact ⟨_, .writeCell (eaBase base off s) (s.getReg sr) rfl rfl rfl,
      fun s' ha => by
        simp [exec, execStr, eaBase, ha.regs sr (.head _), ha.regs base (.tail _ (.head _))]⟩
  | trap v => exact trap_actsAlike h
  | res1000 => exact ⟨_, .stay rfl rfl, fun _ _ => rfl⟩
  | res1101 => exact ⟨_, .stay rfl rfl, fun _ _ => rfl⟩
  | getc => exact actsAlike_of_inputRoutine rfl rfl rfl (fun _ => rfl) h
  | inEcho => exact actsAlike_of_inputRoutine rfl rfl rfl (fun _ => rfl) h
  | out => exact actsAlike_of_outRoutine rfl rfl (by decide) rfl (fun _ => rfl)
  | puts => exact actsAlike_of_stringRoutine rfl rfl (by decide) rfl (fun _ => rfl) h
  | putsp => exact actsAlike_of_stringRoutine rfl rfl (by decide) rfl (fun _ => rfl) h
  | halt => exact ⟨_, .halt (.inl rfl) rfl rfl, fun _ _ => rfl⟩
  | trapUndefined v => exact actsAlike_of_noRoutine rfl rfl rfl (fun _ => rfl)
  | ret =>
    exact ⟨_, .jump (s.getReg 7) rfl rfl,
      fun s' ha => by simp [exec, execRet, ha.regs 7 (.head _)]⟩
  | nop off => exact ⟨_, .stay rfl rfl, fun _ _ => rfl⟩

/-- What an instruction that is taken does: the next state is an effect's, and from every agreeing
state it is the same effect's. -/
theorem exec_effect {i : Instr} {s t : State} (h : exec i s = .next t) :
    ∃ u, Effect i s u ∧ t = u s ∧ ∀ s', AgreesFor i s s' → exec i s' = .next (u s') := by
  obtain ⟨u, hu, hexec⟩ := exec_actsAlike h
  exact ⟨u, hu, Host.Outcome.next.inj (h.symm.trans (hexec s (.refl i s))), hexec⟩

end Sys2Proof.Machine
end

/-! ## The state (10_state.md)

What effects write, leave alone and depend on, and the obligations of that chapter. -/

section
namespace Sys2Proof.Machine

open Sys2Proof

/-! ### What an effect writes and leaves alone -/

section
variable {i : Instr} {s : State} {u : State → State}

/-- An effect leaves every register outside the row's "writes" as it was. -/
theorem Effect.regsKept (hu : Effect i s u) (s' : State) : RegsKept (writesOf i) s' (u s') := by
  intro q hq
  cases hu with
  | stay => rfl
  | jump => rfl
  | writeCell => rfl
  | _ => simp_all

/-- What an effect leaves in a register of the row's "writes" depends on no register but the pc. -/
theorem Effect.getReg_written {q : Reg} {s' : State} (hu : Effect i s u) (hq : q ∈ writesOf i)
    (hpc : s'.pc = s.pc) : (u s').getReg q = (u s).getReg q := by
  cases hu with
  | takeChar _ _ _ _ hw =>
    rw [hw] at hq
    obtain rfl | rfl : q = 7 ∨ q = 0 := by simpa using hq
    · simp [hpc]
    · simp
  | _ => simp_all

theorem Effect.flagOf {dr : Reg} (hu : Effect i s u) (h : flagRegOf i = some dr) :
    FlagOf ((u s).getReg dr) (u s).cond := by
  cases hu with
  | writeReg v hf hw =>
    obtain rfl : _ = dr := Option.some.inj (hf.symm.trans h)
    simpa using flagOf_ofWord v
  | _ => simp_all

theorem Effect.cond_eq (hu : Effect i s u) (h : flagRegOf i = none) : (u s).cond = s.cond := by
  cases hu with
  | writeReg _ hf => simp [h] at hf
  | _ => rfl

theorem Effect.run_eq (hu : Effect i s u) (h : i ≠ .halt) (h' : i ≠ .trap 0x25) :
    (u s).run = s.run := by
  cases hu with
  | halt hi => exact (hi.elim h h').elim
  | _ => rfl

theorem Effect.conOut_eq (hu : Effect i s u) : ∃ put, (u s).conOut = s.conOut ++ put := by
  cases hu with
  | takeChar _ put => exact ⟨put, rfl⟩
  | putChars put => exact ⟨put, rfl⟩
  | _ => exact ⟨[], (List.append_nil _).symm⟩

theorem Effect.conIn_eq (hu : Effect i s u) :
    (u s).conIn = s.conIn ∨ ∃ c, s.conIn = c :: (u s).conIn := by
  cases hu with
  | takeChar c _ hin => exact .inr ⟨c, by simp [State.takeChar, hin]⟩
  | _ => exact .inl rfl

theorem Effect.consoleKept (hu : Effect i s u) (h : isTrap i = false) : ConsoleKept s (u s) := by
  cases hu with
  | takeChar _ _ _ _ _ ht => simp [h] at ht
  | putChars _ _ _ ht => simp [h] at ht
  | _ => exact ⟨rfl, rfl⟩

/-! ### The same effect on a state that differs in one part -/

theorem Effect.withCond (hu : Effect i s u) (c : Cond) :
    u { s with cond := c } = if (flagRegOf i).isSome then u s else { u s with cond := c } := by
  cases hu <;> simp only [‹flagRegOf i = _›] <;> rfl

theorem Effect.withOutputBefore (hu : Effect i s u) (before : List Byte) :
    u { s with conOut := before ++ s.conOut } = { u s with conOut := before ++ (u s).conOut } := by
  cases hu with
  | takeChar _ put => simp [State.consolePut, State.takeChar]
  | putChars put => simp [State.consolePut]
  | _ => rfl

/-- With another value in one register the effect leaves the same in every other register, and in
that one too if the instruction writes it. -/
theorem Effect.getReg_setReg {r q : Reg} (hu : Effect i s u) (v : Word)
    (hq : q = r → r ∈ writesOf i) : (u (s.setReg r v)).getReg q = (u s).getReg q := by
  by_cases hw : q ∈ writesOf i
  · exact hu.getReg_written hw rfl
  · have hne : q ≠ r := fun h => hw (h ▸ hq h)
    rw [hu.regsKept _ q hw, hu.regsKept _ q hw, State.getReg_setReg, if_neg hne]

/-- After another value in one register the effect differs in registers only. -/
theorem Effect.setReg_frame (hu : Effect i s u) (r : Reg) (v : Word) :
    u (s.setReg r v) = { u s with regs := (u (s.setReg r v)).regs } := by
  cases hu with
  | writeReg w => simp [State.setRegCc, State.setcc]
  | _ => rfl

end

/-! ### The obligations -/

/-- Settles O9: each entry of the table is a field of `State.resetWith`. -/
theorem stateAfterResetIsAsTabulated : Obligations.StateAfterResetIsAsTabulated :=
  ⟨fun _ _ _ => ⟨rfl, rfl, rfl, fun _ => rfl, fun _ => rfl, rfl, rfl, rfl⟩, _, _, _, rfl⟩

/-- Settles O49: the memory of `State.reset` lists nothing. -/
theorem memoryIsCanonicalAfterReset : Obligations.MemoryIsCanonicalAfterReset :=
  ⟨.nil, fun _ hc => absurd hc List.not_mem_nil⟩

/-- Settles O13: the one effect that writes `run` is the HALT trap's, and a step that is taken
starts in RUNNING. -/
theorem onlyHaltTrapHalts : Obligations.OnlyHaltTrapHalts := by
  refine ⟨fun _ _ _ => rfl, fun s t h => ?_, fun s hs t h => ?_, fun _ _ _ => rfl⟩
  · obtain ⟨-, hrun, hexec⟩ := step_cases h
    refine ⟨hrun, fun ht => ?_, fun hi => ?_⟩
    · obtain ⟨u, hu, rfl, -⟩ := exec_effect hexec
      by_contra hi
      have hkept : (u s.advance).run = s.run := hu.run_eq hi (decode_ne_trap _ _)
      rw [hkept, hrun] at ht
      cases ht
    · rw [hi] at hexec
      cases hexec
      rfl
  · obtain ⟨-, hrun, -⟩ := step_cases h
    rw [hs] at hrun
    cases hrun

/-- Settles O18: the one effect that writes `cond` is that of the flag-setting instructions, and but
for a branch a state with another `cond` agrees on all that is read. -/
theorem onlySevenWriteAndOnlyBranchReadsFlags :
    Obligations.OnlySevenWriteAndOnlyBranchReadsFlags := by
  refine ⟨fun s t h => ?_, fun i s t c hb h => ?_⟩
  · obtain ⟨-, -, hexec⟩ := step_cases h
    obtain ⟨u, hu, rfl, -⟩ := exec_effect hexec
    split
    · next dr hf => exact hu.flagOf hf
    · next hf => exact hu.cond_eq hf
  · obtain ⟨u, hu, rfl, hexec⟩ := exec_effect h
    have ha : AgreesFor i s { s with cond := c } :=
      { AgreesFor.refl i s with cond := fun hb' => by simp [hb] at hb' }
    rw [hexec _ ha, hu.withCond]

/-- Settles O44: an effect keeps the registers outside the row's "writes", and a state with another
value in a register outside the row's "reads" agrees on all that is read. -/
theorem registersReadAndWrittenAsTabulated : Obligations.RegistersReadAndWrittenAsTabulated := by
  refine ⟨fun i s t h => ?_, fun i s t r v hr h => ?_⟩
  · obtain ⟨u, hu, rfl, -⟩ := exec_effect h
    exact hu.regsKept s
  · obtain ⟨u, hu, rfl, hexec⟩ := exec_effect h
    have hread : ∀ q ∈ readsOf i, q ≠ r := fun q hq e => hr (e ▸ hq)
    have ha : AgreesFor i s (s.setReg r v) :=
      { AgreesFor.refl i s with
        regs := fun q hq => by rw [State.getReg_setReg, if_neg (hread q hq)] }
    have hframe := hu.setReg_frame r v
    refine ⟨_, hexec _ ha, fun q hq => ?_, fun hw => hu.getReg_setReg v fun _ => hw,
      (congrArg State.pc hframe :), (congrArg State.cond hframe :), (congrArg State.mem hframe :),
      ⟨(congrArg State.conIn hframe :), (congrArg State.conOut hframe :)⟩,
      (congrArg State.run hframe :), (congrArg State.resetLine hframe :)⟩
    exact hu.getReg_setReg v fun e => absurd (List.mem_singleton.mpr e) hq

/-- Settles O51: the effects on the console are a TRAP's, one character from the front of the input
and characters at the end of the output. -/
theorem consoleTrafficIsByTrapsAndInOrder : Obligations.ConsoleTrafficIsByTrapsAndInOrder := by
  intro s t h
  obtain ⟨-, -, hexec⟩ := step_cases h
  obtain ⟨u, hu, rfl, -⟩ := exec_effect hexec
  exact ⟨hu.conOut_eq, hu.conIn_eq, hu.consoleKept⟩

/-- Settles O52: a state with more output before agrees on all that is read, and the effect only
adds at the end. -/
theorem outputHistoryIsNeverRead : Obligations.OutputHistoryIsNeverRead := by
  intro s t before h
  obtain ⟨hr, hrun, hexec⟩ := step_cases h
  obtain ⟨u, hu, rfl, hother⟩ := exec_effect hexec
  have ha : AgreesFor (decode (s.readCell s.pc)) s.advance
      { s.advance with conOut := before ++ s.advance.conOut } := { AgreesFor.refl _ s.advance with }
  calc step { s with conOut := before ++ s.conOut }
      = exec (decode (s.readCell s.pc)) { s.advance with conOut := before ++ s.advance.conOut } :=
        step_running hr hrun
    _ = .next { u s.advance with conOut := before ++ (u s.advance).conOut } := by
        rw [hother _ ha, hu.withOutputBefore]

end Sys2Proof.Machine
end

/-! ## Memory (20_memory.md)

Which effects write a cell, that a canonical memory is determined by what is read from it, and the
obligations of that chapter. -/

section
namespace Sys2Proof.Machine

open Sys2Proof

/-! ### What a step does to memory -/

/-- An effect leaves memory alone, or is a store's and writes one cell. -/
theorem Effect.mem_cases {i : Instr} {s : State} {u : State → State} (hu : Effect i s u) :
    (u s).mem = s.mem ∨ isStore i = true ∧ ∃ a v, (u s).mem = s.mem.write a v := by
  cases hu with
  | writeCell a v _ _ hs => exact .inr ⟨hs, a, v, rfl⟩
  | _ => exact .inl rfl

/-- A step leaves memory alone, or runs a store and writes one cell (R62). -/
theorem step_mem_cases {s t : State} (h : step s = .next t) :
    t.mem = s.mem ∨
      isStore (decode (s.readCell s.pc)) = true ∧ ∃ a v, t.mem = s.mem.write a v := by
  obtain ⟨-, -, hexec⟩ := step_cases h
  obtain ⟨u, hu, rfl, -⟩ := exec_effect hexec
  exact hu.mem_cases

/-- The load port while `reset` is asserted (10_state.md R38). -/
theorem loadPort_of_resetLine {s : State} (h : s.resetLine = true) (a v : Word) :
    s.loadPort a v = .next (s.writeCell a v) := if_pos h

/-- MemWrite sets the one cell and nothing else (R54). -/
theorem storedCell_writeCell (s : State) (a v : Word) : StoredCell a v s (s.writeCell a v) := by
  refine ⟨by simp, fun b hb => ?_, fun _ _ => rfl, rfl, rfl, ⟨rfl, rfl⟩, ⟨rfl, rfl⟩⟩
  rw [State.readCell_writeCell, if_neg (by simpa using hb)]

/-- A pc-relative address with offset 0 is the pc (43_load_store.md R157). -/
theorem eaPcRel_zero (s : State) : eaPcRel 0 s = s.pc := BitVec.add_zero s.pc

/-! ### The entries of a canonical memory -/

/-- Where the addresses rise strictly, the value read at a listed address is the one listed. -/
theorem Memory.lookup_of_mem {m : Memory} (hm : m.Pairwise (fun c d => c.1 < d.1))
    {c : Nat × Word} (hc : c ∈ m) : m.lookup c.1 = c.2 := by
  induction m with
  | nil => cases hc
  | cons d m ih =>
    obtain ⟨hdm, hm⟩ := List.pairwise_cons.mp hm
    rcases List.mem_cons.mp hc with rfl | hc
    · exact if_pos rfl
    · have hne : d.1 ≠ c.1 := (hdm c hc).ne
      exact (if_neg hne).trans (ih hm hc)

/-- An address that does not read as an unwritten cell is listed. -/
theorem Memory.mem_of_lookup {m : Memory} {k : Nat} (h : m.lookup k ≠ Config.unwrittenCell) :
    (k, m.lookup k) ∈ m := by
  induction m with
  | nil => exact absurd rfl h
  | cons d m ih =>
    unfold Memory.lookup at h ⊢
    split at h
    · next hd => simp [← hd]
    · next hd => simpa [hd] using List.mem_cons_of_mem d (ih h)

/-- The entries of a canonical memory stand in every memory that reads alike. -/
theorem Memory.subset_of_read_eq {m m' : Memory} (hm : m.wf)
    (h : ∀ a : Word, m.read a = m'.read a) : m ⊆ m' := by
  intro c hc
  obtain ⟨hlt, hne⟩ := hm.2 c hc
  have hread : m'.lookup c.1 = c.2 := by
    have ha : (BitVec.ofNat 16 c.1).toNat = c.1 := Nat.mod_eq_of_lt hlt
    have := h (BitVec.ofNat 16 c.1)
    rwa [Memory.read, Memory.read, ha, Memory.lookup_of_mem hm.1 hc, eq_comm] at this
  have hmem := Memory.mem_of_lookup (hread ▸ hne : m'.lookup c.1 ≠ Config.unwrittenCell)
  rwa [hread] at hmem

/-! ### The obligations -/

/-- Settles O48: a step leaves memory alone or writes one cell, and a write keeps the form. -/
theorem everyStepKeepsMemoryCanonical : Obligations.EveryStepKeepsMemoryCanonical := by
  intro s t hs h
  unfold State.Inv at hs ⊢
  rcases step_mem_cases h with hkept | ⟨-, a, v, hwrite⟩
  · rwa [hkept]
  · rw [hwrite]
    exact Memory.wf_write hs a v

/-- Settles O45: the one effect on memory is a store's, and the load port is closed by the `reset`
input. -/
theorem onlyStoresChangeMemory : Obligations.OnlyStoresChangeMemory := by
  refine ⟨fun s t h hns => ?_, fun s a v hr t h => ?_, fun s a v hr => ?_⟩
  · rcases step_mem_cases h with hkept | ⟨hstore, -⟩
    · exact hkept
    · simp [hns] at hstore
  · obtain ⟨hr', -⟩ := loadPort_cases h
    simp [hr] at hr'
  · obtain ⟨hcell, hcells, -⟩ := storedCell_writeCell s a v
    exact ⟨_, loadPort_of_resetLine hr a v, hcell, hcells⟩

/-- Settles O47: the store's address is the advanced pc, which is where the next step fetches. -/
theorem storeIsSeenByTheNextFetch : Obligations.StoreIsSeenByTheNextFetch := by
  intro s sr hr hrun hdec
  let t := s.advance.writeCell (s.pc + 1) (s.getReg sr)
  have hstep : step s = .next t := by
    rw [step_running hr hrun, hdec, exec, execSt, eaPcRel_zero]
    rfl
  have hcell : t.readCell t.pc = s.getReg sr := (storedCell_writeCell s.advance _ _).1
  have hpc : s.pc + 1 + 1 = s.pc + 2 := BitVec.add_assoc ..
  refine ⟨t, hstep, rfl, hcell, ?_⟩
  calc step t = exec (decode (t.readCell t.pc)) t.advance := step_running hr hrun
    _ = exec (decode (s.getReg sr)) { t with pc := s.pc + 2 } := by
      rw [hcell, ← hpc]
      rfl

/-- Settles O50: the two memories have the same entries, and strictly rising addresses leave one
order for them. -/
theorem canonicalMemoriesReadingAlikeAreEqual :
    Obligations.CanonicalMemoriesReadingAlikeAreEqual := by
  intro m m' hm hm' h
  have hsub : m ⊆ m' := Memory.subset_of_read_eq hm h
  have hsub' : m' ⊆ m := Memory.subset_of_read_eq hm' fun a => (h a).symm
  have : Std.Irrefl fun c d : Nat × Word => c.1 < d.1 := ⟨fun _ => lt_irrefl _⟩
  have : Std.Antisymm fun c d : Nat × Word => c.1 < d.1 := ⟨fun _ _ h h' => absurd h h'.asymm⟩
  exact List.Subset.antisymm_of_pairwise hm.1 hm'.1 hsub hsub'

/-- Settles O46: a read after a write, and every other field is as it was. -/
theorem memWriteChangesExactlyOneCell : Obligations.MemWriteChangesExactlyOneCell :=
  storedCell_writeCell

end Sys2Proof.Machine
end

/-! ## The decoder and the encoder (30_encoding.md)

A field by the word's number, the first level of the decoder row by row, each format read back from
the word it was placed in, the rows that refine another row, and the obligations of that chapter. -/

section
namespace Sys2Proof.Machine

open Sys2Proof

/-! ### Fields by shift and mask (R83) -/

/-- A field is the word's number shifted, then cut to the field's width. -/
theorem field_eq_ofNat (lo len : Nat) (w : Word) :
    field lo len w = BitVec.ofNat len (w.toNat / 2 ^ lo) := by
  rw [← Nat.shiftRight_eq_div_pow]
  rfl

theorem fieldReg_eq_regAt (lo : Nat) (w : Word) : fieldReg lo w = regAt w lo := by
  rw [fieldReg, field_eq_ofNat]
  rfl

/-- A field from its number in the word's number. -/
theorem field_eq_of_toNat {lo len k : Nat} {w : Word} (h : w.toNat / 2 ^ lo % 2 ^ len = k) :
    field lo len w = BitVec.ofNat len k := by
  rw [field_eq_ofNat, ← h]
  exact BitVec.eq_of_toNat_eq (by simp)

/-- The operation a word selects, from the number above its low twelve bits (R81). -/
theorem ofBits_opcode_of_div {k : Nat} {w : Word} (h : w.toNat / 4096 = k) :
    Opcode.ofBits (field 12 4 w) = Opcode.ofBits (BitVec.ofNat 4 k) := by
  rw [field_eq_of_toNat (lo := 12) (len := 4) (w := w) (k := k) (by omega)]

@[simp] theorem field_and (lo len : Nat) (a b : Word) :
    field lo len (a &&& b) = field lo len a &&& field lo len b := by
  ext i h
  simp [field]

/-- A mask with ones all over a field keeps the field. -/
theorem field_of_masked {lo len : Nat} {w mask c : Word} (h : w &&& mask = c)
    (hmask : field lo len mask = BitVec.allOnes len) : field lo len w = field lo len c := by
  rw [← h, field_and, hmask, BitVec.and_allOnes]

/-- Words that agree under such a mask have the same field. -/
theorem field_congr_of_masked {lo len : Nat} {w w' mask : Word} (h : w &&& mask = w' &&& mask)
    (hmask : field lo len mask = BitVec.allOnes len) : field lo len w = field lo len w' :=
  (field_of_masked h hmask).trans (field_of_masked rfl hmask).symm

theorem fieldReg_congr_of_masked {lo : Nat} {w w' mask : Word} (h : w &&& mask = w' &&& mask)
    (hmask : field lo 3 mask = BitVec.allOnes 3) : fieldReg lo w = fieldReg lo w' :=
  congrArg BitVec.toFin (field_congr_of_masked h hmask)

/-- The operation a word selects, from its bits under a mask that has the opcode field. -/
theorem ofBits_opcode_of_masked {w mask c : Word} {o : Opcode} (h : w &&& mask = c)
    (hmask : field 12 4 mask = BitVec.allOnes 4) (ho : Opcode.ofBits (field 12 4 c) = o) :
    Opcode.ofBits (field 12 4 w) = o := by
  rw [field_of_masked h hmask, ho]

theorem ofBits_opcode_congr {w w' mask : Word} (h : w &&& mask = w' &&& mask)
    (hmask : field 12 4 mask = BitVec.allOnes 4) :
    Opcode.ofBits (field 12 4 w') = Opcode.ofBits (field 12 4 w) :=
  congrArg Opcode.ofBits (field_congr_of_masked h hmask).symm

/-! ### The first level of the decoder, row by row (R86, R92) -/

section
variable {w : Word}

theorem decodePrimary_br (h : Opcode.ofBits (field 12 4 w) = .br) :
    decodePrimary w = .br (field 9 3 w) (field 0 9 w) := by
  simp [decodePrimary, h]

theorem decodePrimary_addReg (h : Opcode.ofBits (field 12 4 w) = .add) (hf : field 5 1 w = 0#1) :
    decodePrimary w = .addReg (fieldReg 9 w) (fieldReg 6 w) (fieldReg 0 w) := by
  simp [decodePrimary, h, hf]

theorem decodePrimary_addImm (h : Opcode.ofBits (field 12 4 w) = .add) (hf : field 5 1 w = 1#1) :
    decodePrimary w = .addImm (fieldReg 9 w) (fieldReg 6 w) (field 0 5 w) := by
  simp [decodePrimary, h, hf]

theorem decodePrimary_ld (h : Opcode.ofBits (field 12 4 w) = .ld) :
    decodePrimary w = .ld (fieldReg 9 w) (field 0 9 w) := by
  simp [decodePrimary, h]

theorem decodePrimary_st (h : Opcode.ofBits (field 12 4 w) = .st) :
    decodePrimary w = .st (fieldReg 9 w) (field 0 9 w) := by
  simp [decodePrimary, h]

theorem decodePrimary_jsr (h : Opcode.ofBits (field 12 4 w) = .jsr) (hf : field 11 1 w = 1#1) :
    decodePrimary w = .jsr (field 0 11 w) := by
  simp [decodePrimary, h, hf]

theorem decodePrimary_jsrr (h : Opcode.ofBits (field 12 4 w) = .jsr) (hf : field 11 1 w = 0#1) :
    decodePrimary w = .jsrr (fieldReg 6 w) := by
  simp [decodePrimary, h, hf]

theorem decodePrimary_andReg (h : Opcode.ofBits (field 12 4 w) = .and) (hf : field 5 1 w = 0#1) :
    decodePrimary w = .andReg (fieldReg 9 w) (fieldReg 6 w) (fieldReg 0 w) := by
  simp [decodePrimary, h, hf]

theorem decodePrimary_andImm (h : Opcode.ofBits (field 12 4 w) = .and) (hf : field 5 1 w = 1#1) :
    decodePrimary w = .andImm (fieldReg 9 w) (fieldReg 6 w) (field 0 5 w) := by
  simp [decodePrimary, h, hf]

theorem decodePrimary_ldr (h : Opcode.ofBits (field 12 4 w) = .ldr) :
    decodePrimary w = .ldr (fieldReg 9 w) (fieldReg 6 w) (field 0 6 w) := by
  simp [decodePrimary, h]

theorem decodePrimary_str (h : Opcode.ofBits (field 12 4 w) = .str) :
    decodePrimary w = .str (fieldReg 9 w) (fieldReg 6 w) (field 0 6 w) := by
  simp [decodePrimary, h]

theorem decodePrimary_res1000 (h : Opcode.ofBits (field 12 4 w) = .res1000) :
    decodePrimary w = .res1000 := by
  simp [decodePrimary, h]

theorem decodePrimary_not (h : Opcode.ofBits (field 12 4 w) = .not) :
    decodePrimary w = .not (fieldReg 9 w) (fieldReg 6 w) := by
  simp [decodePrimary, h]

theorem decodePrimary_ldi (h : Opcode.ofBits (field 12 4 w) = .ldi) :
    decodePrimary w = .ldi (fieldReg 9 w) (field 0 9 w) := by
  simp [decodePrimary, h]

theorem decodePrimary_sti (h : Opcode.ofBits (field 12 4 w) = .sti) :
    decodePrimary w = .sti (fieldReg 9 w) (field 0 9 w) := by
  simp [decodePrimary, h]

theorem decodePrimary_jmp (h : Opcode.ofBits (field 12 4 w) = .jmp) :
    decodePrimary w = .jmp (fieldReg 6 w) := by
  simp [decodePrimary, h]

theorem decodePrimary_res1101 (h : Opcode.ofBits (field 12 4 w) = .res1101) :
    decodePrimary w = .res1101 := by
  simp [decodePrimary, h]

theorem decodePrimary_lea (h : Opcode.ofBits (field 12 4 w) = .lea) :
    decodePrimary w = .lea (fieldReg 9 w) (field 0 9 w) := by
  simp [decodePrimary, h]

theorem decodePrimary_trap (h : Opcode.ofBits (field 12 4 w) = .trap) :
    decodePrimary w = .trap (field 0 8 w) := by
  simp [decodePrimary, h]

end

/-- The first level answers no row that asks for a check of its operand. -/
theorem decodePrimary_wellFormed (w : Word) : (decodePrimary w).WellFormed = true := by
  unfold decodePrimary
  repeat' split
  all_goals rfl

/-! ### The formats read back (R82) -/

theorem encodeOpr_fields (o : Opcode) (dr sr1 sr2 : Reg) :
    fieldReg 9 (encodeOpr o dr sr1 sr2) = dr ∧ fieldReg 6 (encodeOpr o dr sr1 sr2) = sr1 ∧
      field 5 1 (encodeOpr o dr sr1 sr2) = 0#1 ∧ fieldReg 0 (encodeOpr o dr sr1 sr2) = sr2 := by
  simp (disch := omega) [encodeOpr, fieldReg, placeReg, field_place, field_place_beside]

theorem encodeOpi_fields (o : Opcode) (dr sr1 : Reg) (imm5 : BitVec 5) :
    fieldReg 9 (encodeOpi o dr sr1 imm5) = dr ∧ fieldReg 6 (encodeOpi o dr sr1 imm5) = sr1 ∧
      field 5 1 (encodeOpi o dr sr1 imm5) = 1#1 ∧ field 0 5 (encodeOpi o dr sr1 imm5) = imm5 := by
  simp (disch := omega) [encodeOpi, fieldReg, placeReg, field_place, field_place_beside]

theorem encodeNot_fields (dr sr : Reg) :
    fieldReg 9 (encodeNot dr sr) = dr ∧ fieldReg 6 (encodeNot dr sr) = sr := by
  simp (disch := omega) [encodeNot, fieldReg, placeReg, field_place, field_place_beside]

theorem encodeBr_fields (nzp : BitVec 3) (off : BitVec 9) :
    field 9 3 (encodeBr nzp off) = nzp ∧ field 0 9 (encodeBr nzp off) = off := by
  simp (disch := omega) [encodeBr, field_place, field_place_beside]

theorem encodeJmp_field (base : Reg) : fieldReg 6 (encodeJmp base) = base := by
  simp (disch := omega) [encodeJmp, fieldReg, placeReg, field_place, field_place_beside]

theorem encodeJsr_fields (off : BitVec 11) :
    field 11 1 (encodeJsr off) = 1#1 ∧ field 0 11 (encodeJsr off) = off := by
  simp (disch := omega) [encodeJsr, field_place, field_place_beside]

theorem encodeJsrr_fields (base : Reg) :
    field 11 1 (encodeJsrr base) = 0#1 ∧ fieldReg 6 (encodeJsrr base) = base := by
  simp (disch := omega) [encodeJsrr, fieldReg, placeReg, field_place, field_place_beside]

theorem encodePcrel_fields (o : Opcode) (r : Reg) (off : BitVec 9) :
    fieldReg 9 (encodePcrel o r off) = r ∧ field 0 9 (encodePcrel o r off) = off := by
  simp (disch := omega) [encodePcrel, fieldReg, placeReg, field_place, field_place_beside]

theorem encodeBaseoff_fields (o : Opcode) (r base : Reg) (off : BitVec 6) :
    fieldReg 9 (encodeBaseoff o r base off) = r ∧ fieldReg 6 (encodeBaseoff o r base off) = base ∧
      field 0 6 (encodeBaseoff o r base off) = off := by
  simp (disch := omega) [encodeBaseoff, fieldReg, placeReg, field_place, field_place_beside]

theorem encodeTrap_field (v : BitVec 8) : field 0 8 (encodeTrap v) = v := by
  simp (disch := omega) [encodeTrap, field_place, field_place_beside]

/-! ### The rows that refine another row (R94, R96, R101; log entry 8) -/

/-- An instruction and a spelling of it by a row at least as specific. -/
inductive RefinesTo : Instr → Instr → Prop
  | same (i : Instr) : RefinesTo i i
  | routine (r : TrapRoutine) : RefinesTo (.trap r.vector) (canonicalTrap r.vector)
  | undefined {v : BitVec 8} (h : TrapRoutine.ofVector v = none) :
      RefinesTo (.trap v) (.trapUndefined v)
  | ret : RefinesTo (.jmp 7) .ret
  | nop (off : BitVec 9) : RefinesTo (.br 0 off) (.nop off)

/-- A TRAP whose vector selects no routine is the undefined one (44_trap.md R183). -/
theorem canonicalTrap_of_ofVector_eq_none {v : BitVec 8} (h : TrapRoutine.ofVector v = none) :
    canonicalTrap v = .trapUndefined v := by
  simp [canonicalTrap, h]

/-- The most specific spelling of an instruction is a spelling of it. -/
theorem refinesTo_canonical (i : Instr) : RefinesTo i i.canonical := by
  cases i with
  | trap v =>
    show RefinesTo (.trap v) (canonicalTrap v)
    cases hr : TrapRoutine.ofVector v with
    | none =>
      rw [canonicalTrap_of_ofVector_eq_none hr]
      exact .undefined hr
    | some r =>
      obtain rfl := eq_vector_of_ofVector hr
      exact .routine r
  | jmp base =>
    by_cases hb : base = 7
    · subst hb
      exact .ret
    · rw [show Instr.canonical (.jmp base) = .jmp base from if_neg hb]
      exact .same _
  | br nzp off =>
    by_cases hn : nzp = 0
    · subst hn
      exact .nop off
    · rw [show Instr.canonical (.br nzp off) = .br nzp off from if_neg hn]
      exact .same _
  | _ => exact .same _

section
variable {i j : Instr}

/-- Two spellings of an instruction have one word. -/
theorem RefinesTo.encode_eq (h : RefinesTo i j) : encode j = encode i := by
  cases h with
  | routine r => cases r <;> rfl
  | _ => rfl

/-- Two spellings of an instruction run alike. -/
theorem RefinesTo.exec_eq (h : RefinesTo i j) (s : State) : exec j s = exec i s := by
  cases h with
  | same => rfl
  | routine r => cases r <;> rfl
  | undefined hv => simp [exec, execTrap, execTrapUndefined, trapDispatch, hv]
  | ret => rfl
  | nop off => simp [exec, execNop, execBr, State.condHolds]

theorem RefinesTo.canonical_eq (h : RefinesTo i j) : j.canonical = i.canonical := by
  cases h with
  | routine r => cases r <;> rfl
  | undefined hv => exact (canonicalTrap_of_ofVector_eq_none hv).symm
  | _ => rfl

theorem RefinesTo.wellFormed (h : RefinesTo i j) (hi : i.WellFormed = true) :
    j.WellFormed = true := by
  cases h with
  | same => exact hi
  | routine r => cases r <;> rfl
  | undefined hv => exact TrapRoutine.ofVector_eq_none.mp hv
  | _ => rfl

/-- The rows that others refine are TRAP, JMP with base 7 and BR with an empty condition field. -/
theorem RefinesTo.eq_self (h : RefinesTo i j) (htrap : ∀ v, i ≠ .trap v) (hjmp : i ≠ .jmp 7)
    (hbr : ∀ off, i ≠ .br 0 off) : j = i := by
  cases h with
  | same => rfl
  | routine r => exact absurd rfl (htrap _)
  | undefined => exact absurd rfl (htrap _)
  | ret => exact absurd rfl hjmp
  | nop off => exact absurd rfl (hbr off)

end

/-! ### The decoder on the encoder's words -/

theorem decodePrimary_encode_trap (v : BitVec 8) : decodePrimary (encode (.trap v)) = .trap v := by
  rw [decodePrimary_trap (Laws.OpcodeField.trap v)]
  exact congrArg Instr.trap (encodeTrap_field v)

theorem decodePrimary_encode_jmp (base : Reg) : decodePrimary (encode (.jmp base)) = .jmp base := by
  rw [decodePrimary_jmp (Laws.OpcodeField.jmp base)]
  exact congrArg Instr.jmp (encodeJmp_field base)

theorem decodePrimary_encode_br (nzp : BitVec 3) (off : BitVec 9) :
    decodePrimary (encode (.br nzp off)) = .br nzp off := by
  rw [decodePrimary_br (Laws.OpcodeField.br nzp off)]
  simp [encode, encodeBr_fields]

/-- Where the first level reads an instruction back from its word, it reads a spelling of every
instruction that refines it. -/
theorem RefinesTo.decodePrimary_encode {i j : Instr} (h : RefinesTo i j)
    (hi : decodePrimary (encode i) = i) : RefinesTo (decodePrimary (encode j)) j := by
  rw [h.encode_eq, hi]
  exact h

/-- The first level reads a spelling of a well-formed instruction back from its word. -/
theorem decodePrimary_encode_refinesTo {i : Instr} (hi : i.WellFormed = true) :
    RefinesTo (decodePrimary (encode i)) i := by
  cases i
  case nop off => exact (RefinesTo.nop off).decodePrimary_encode (decodePrimary_encode_br 0 off)
  case ret => exact RefinesTo.ret.decodePrimary_encode (decodePrimary_encode_jmp 7)
  case trapUndefined v =>
    exact (RefinesTo.undefined (TrapRoutine.ofVector_eq_none.mpr hi)).decodePrimary_encode
      (decodePrimary_encode_trap v)
  case getc => exact (RefinesTo.routine .getc).decodePrimary_encode (decodePrimary_encode_trap _)
  case out => exact (RefinesTo.routine .out).decodePrimary_encode (decodePrimary_encode_trap _)
  case puts => exact (RefinesTo.routine .puts).decodePrimary_encode (decodePrimary_encode_trap _)
  case inEcho =>
    exact (RefinesTo.routine .inEcho).decodePrimary_encode (decodePrimary_encode_trap _)
  case putsp => exact (RefinesTo.routine .putsp).decodePrimary_encode (decodePrimary_encode_trap _)
  case halt => exact (RefinesTo.routine .halt).decodePrimary_encode (decodePrimary_encode_trap _)
  all_goals refine (RefinesTo.same _).decodePrimary_encode ?_
  case addReg dr sr1 sr2 =>
    obtain ⟨-, -, hform, -⟩ := encodeOpr_fields .add dr sr1 sr2
    rw [decodePrimary_addReg (Laws.OpcodeField.addReg dr sr1 sr2) hform]
    simp [encode, encodeOpr_fields]
  case addImm dr sr1 imm5 =>
    obtain ⟨-, -, hform, -⟩ := encodeOpi_fields .add dr sr1 imm5
    rw [decodePrimary_addImm (Laws.OpcodeField.addImm dr sr1 imm5) hform]
    simp [encode, encodeOpi_fields]
  case andReg dr sr1 sr2 =>
    obtain ⟨-, -, hform, -⟩ := encodeOpr_fields .and dr sr1 sr2
    rw [decodePrimary_andReg (Laws.OpcodeField.andReg dr sr1 sr2) hform]
    simp [encode, encodeOpr_fields]
  case andImm dr sr1 imm5 =>
    obtain ⟨-, -, hform, -⟩ := encodeOpi_fields .and dr sr1 imm5
    rw [decodePrimary_andImm (Laws.OpcodeField.andImm dr sr1 imm5) hform]
    simp [encode, encodeOpi_fields]
  case not dr sr =>
    rw [decodePrimary_not (Laws.OpcodeField.not dr sr)]
    simp [encode, encodeNot_fields]
  case br nzp off => exact decodePrimary_encode_br nzp off
  case jmp base => exact decodePrimary_encode_jmp base
  case jsr off =>
    obtain ⟨hform, hoff⟩ := encodeJsr_fields off
    rw [decodePrimary_jsr (Laws.OpcodeField.jsr off) hform]
    exact congrArg Instr.jsr hoff
  case jsrr base =>
    obtain ⟨hform, hbase⟩ := encodeJsrr_fields base
    rw [decodePrimary_jsrr (Laws.OpcodeField.jsrr base) hform]
    exact congrArg Instr.jsrr hbase
  case ld dr off =>
    rw [decodePrimary_ld (Laws.OpcodeField.ld dr off)]
    simp [encode, encodePcrel_fields]
  case ldi dr off =>
    rw [decodePrimary_ldi (Laws.OpcodeField.ldi dr off)]
    simp [encode, encodePcrel_fields]
  case ldr dr base off =>
    rw [decodePrimary_ldr (Laws.OpcodeField.ldr dr base off)]
    simp [encode, encodeBaseoff_fields]
  case lea dr off =>
    rw [decodePrimary_lea (Laws.OpcodeField.lea dr off)]
    simp [encode, encodePcrel_fields]
  case st sr off =>
    rw [decodePrimary_st (Laws.OpcodeField.st sr off)]
    simp [encode, encodePcrel_fields]
  case sti sr off =>
    rw [decodePrimary_sti (Laws.OpcodeField.sti sr off)]
    simp [encode, encodePcrel_fields]
  case str sr base off =>
    rw [decodePrimary_str (Laws.OpcodeField.str sr base off)]
    simp [encode, encodeBaseoff_fields]
  case trap v => exact decodePrimary_encode_trap v
  case res1000 => exact decodePrimary_res1000 Laws.OpcodeField.res1000
  case res1101 => exact decodePrimary_res1101 Laws.OpcodeField.res1101

/-- The decoder answers the most specific spelling of the instruction that was written. -/
theorem decode_encode {i : Instr} (hi : i.WellFormed = true) : decode (encode i) = i.canonical :=
  (decodePrimary_encode_refinesTo hi).canonical_eq.symm

theorem canonical_decode (w : Word) : (decode w).canonical = decode w :=
  (refinesTo_canonical (decodePrimary w)).canonical_eq

theorem decode_wellFormed (w : Word) : (decode w).WellFormed = true :=
  (refinesTo_canonical (decodePrimary w)).wellFormed (decodePrimary_wellFormed w)

theorem decode_congr {w w' : Word} (h : decodePrimary w = decodePrimary w') :
    decode w = decode w' := congrArg Instr.canonical h

/-! ### Words of the refining rows -/

theorem decode_of_trap {w : Word} (h : Opcode.ofBits (field 12 4 w) = .trap) :
    decode w = canonicalTrap (field 0 8 w) := by
  rw [decode, decodePrimary_trap h]
  rfl

/-- The words below `0x0200` are BR with an empty condition field, which is NOP (R96, R101). -/
theorem decode_eq_nop {w : Word} (h : w.toNat / 512 = 0) :
    decode w = .nop (BitVec.ofNat 9 w.toNat) := by
  have hop : w.toNat / 4096 = 0 := by omega
  have hnzp : field 9 3 w = 0 := field_eq_of_toNat (k := 0) (by omega)
  rw [decode, decodePrimary_br (ofBits_opcode_of_div hop), hnzp]
  rfl

/-! ### No instruction is refused (R93) -/

section
variable (s : State) (r : Refusal)

theorem inputRoutine_ne_refused (echo : Bool) : inputRoutine echo s ≠ .refused r := by
  unfold inputRoutine
  split <;> simp

theorem stringRoutine_ne_refused (stops : Word → Bool) (chars : Word → List Byte) :
    stringRoutine stops chars s ≠ .refused r := by
  unfold stringRoutine
  split <;> simp

theorem trapDispatch_ne_refused (v : BitVec 8) : trapDispatch v s ≠ .refused r := by
  unfold trapDispatch
  split
  · exact inputRoutine_ne_refused s r _
  · simp [outRoutine]
  · exact stringRoutine_ne_refused s r _ _
  · exact inputRoutine_ne_refused s r _
  · exact stringRoutine_ne_refused s r _ _
  · simp [haltRoutine]
  · simp

/-- Every instruction has a meaning. -/
theorem exec_ne_refused (i : Instr) : exec i s ≠ .refused r := by
  cases i with
  | trap v => exact trapDispatch_ne_refused _ r v
  | getc => exact inputRoutine_ne_refused _ r _
  | inEcho => exact inputRoutine_ne_refused _ r _
  | puts => exact stringRoutine_ne_refused _ r _ _
  | putsp => exact stringRoutine_ne_refused _ r _ _
  | _ => exact nofun

theorem step_ne_refused : step s ≠ .refused r := by
  unfold step
  repeat' split
  · simp
  · simp
  · exact exec_ne_refused _ r _

end

/-! ### The obligations -/

/-- Settles O2: the first level reads a spelling of the instruction back, and two spellings have one
most specific spelling, which is another one only for the three refined rows. -/
theorem decodeGivesBackWhatEncodeWrote : Obligations.DecodeGivesBackWhatEncodeWrote :=
  ⟨fun _ hi => decode_encode hi, fun _ hi hc => (decode_encode hi).trans hc,
    fun i _ htrap hjmp hbr => (refinesTo_canonical i).eq_self htrap hjmp hbr⟩

/-- Settles O3: the first level answers a well-formed row, a refining spelling keeps that, and no
arm of `exec` refuses. -/
theorem everyWordIsAnInstruction : Obligations.EveryWordIsAnInstruction :=
  ⟨fun w => ⟨decode_wellFormed w, canonical_decode w,
    (decode_encode (decode_wellFormed w)).trans (canonical_decode w)⟩, step_ne_refused⟩

/-- Settles O4: the rows of the first level, with each field as a number. -/
theorem wordsDecodeByShiftAndMask : Obligations.WordsDecodeByShiftAndMask := by
  intro w n off9
  simp only [← fieldReg_eq_regAt]
  have hform {lo k : Nat} (hf : n / 2 ^ lo % 2 = k) : field lo 1 w = BitVec.ofNat 1 k :=
    field_eq_of_toNat hf
  refine ⟨fun h => ?_,
    fun h hf => decodePrimary_addReg (ofBits_opcode_of_div h) (hform (lo := 5) hf),
    fun h hf => decodePrimary_addImm (ofBits_opcode_of_div h) (hform (lo := 5) hf),
    fun h => decodePrimary_ld (ofBits_opcode_of_div h),
    fun h => decodePrimary_st (ofBits_opcode_of_div h),
    fun h hf => decodePrimary_jsr (ofBits_opcode_of_div h) (hform (lo := 11) hf),
    fun h hf => decodePrimary_jsrr (ofBits_opcode_of_div h) (hform (lo := 11) hf),
    fun h hf => decodePrimary_andReg (ofBits_opcode_of_div h) (hform (lo := 5) hf),
    fun h hf => decodePrimary_andImm (ofBits_opcode_of_div h) (hform (lo := 5) hf),
    fun h => decodePrimary_ldr (ofBits_opcode_of_div h),
    fun h => decodePrimary_str (ofBits_opcode_of_div h),
    fun h => decodePrimary_res1000 (ofBits_opcode_of_div h),
    fun h => decodePrimary_not (ofBits_opcode_of_div h),
    fun h => decodePrimary_ldi (ofBits_opcode_of_div h),
    fun h => decodePrimary_sti (ofBits_opcode_of_div h),
    fun h => decodePrimary_jmp (ofBits_opcode_of_div h),
    fun h => decodePrimary_res1101 (ofBits_opcode_of_div h),
    fun h => decodePrimary_lea (ofBits_opcode_of_div h),
    fun h => decodePrimary_trap (ofBits_opcode_of_div h), rfl⟩
  rw [decodePrimary_br (ofBits_opcode_of_div h), field_eq_ofNat 9]
  rfl

/-- Settles O5: the field that refines the row has the value that the clause names. -/
theorem refinedRowsDecodeByTheirOwnBits : Obligations.RefinedRowsDecodeByTheirOwnBits := by
  intro w n
  refine ⟨fun h => ?_, fun h hbase => ?_, decode_eq_nop⟩
  · have hdec : decode w = canonicalTrap (field 0 8 w) := decode_of_trap (ofBits_opcode_of_div h)
    have hvec {k : Nat} (hk : n % 256 = k) : decode w = canonicalTrap (BitVec.ofNat 8 k) := by
      rw [hdec, field_eq_of_toNat (lo := 0) (k := k) (by simpa using hk)]
    refine ⟨hvec, hvec, hvec, hvec, hvec, hvec, fun hk => hdec.trans ?_⟩
    refine canonicalTrap_of_ofVector_eq_none (TrapRoutine.ofVector_eq_none.mpr ?_)
    have hlt : (field 0 8 w).toNat = n % 256 := BitVec.toNat_ofNat ..
    simp only [vectorUndefined, hlt, Bool.or_eq_true, decide_eq_true_eq]
    omega
  · have hseven : fieldReg 6 w = 7 := fieldReg_eq (field_eq_of_toNat hbase)
    rw [decode, decodePrimary_jmp (ofBits_opcode_of_div h), hseven]
    rfl

/-- Settles O6: words that agree under the mask agree on the opcode and on every field the row
has. -/
theorem ignoredBitsSelectNothing : Obligations.IgnoredBitsSelectNothing := by
  intro w w'
  refine ⟨fun h hm => decode_congr ?_, fun h hm => decode_congr ?_, fun h hm => decode_congr ?_,
    fun h hm => decode_congr ?_, fun h hm => decode_congr ?_, fun h hm => decode_congr ?_⟩
  · have hop' := ofBits_opcode_congr hm rfl
    have hform' : field 5 1 w' = field 5 1 w := field_congr_of_masked hm.symm rfl
    have hdr := fieldReg_congr_of_masked (lo := 9) hm rfl
    have hsr1 := fieldReg_congr_of_masked (lo := 6) hm rfl
    have hsr2 := fieldReg_congr_of_masked (lo := 0) hm rfl
    rcases h with h | h
    · have hop := ofBits_opcode_of_masked (o := .add) h rfl rfl
      have hform : field 5 1 w = 0#1 := field_of_masked h rfl
      rw [decodePrimary_addReg hop hform, hdr, hsr1, hsr2,
        decodePrimary_addReg (hop'.trans hop) (hform'.trans hform)]
    · have hop := ofBits_opcode_of_masked (o := .and) h rfl rfl
      have hform : field 5 1 w = 0#1 := field_of_masked h rfl
      rw [decodePrimary_andReg hop hform, hdr, hsr1, hsr2,
        decodePrimary_andReg (hop'.trans hop) (hform'.trans hform)]
  · have hop := ofBits_opcode_of_masked (o := .not) h rfl rfl
    rw [decodePrimary_not hop, decodePrimary_not ((ofBits_opcode_congr hm rfl).trans hop),
      fieldReg_congr_of_masked (lo := 9) hm rfl, fieldReg_congr_of_masked (lo := 6) hm rfl]
  · have hop := ofBits_opcode_of_masked (o := .jmp) h rfl rfl
    rw [decodePrimary_jmp hop, decodePrimary_jmp ((ofBits_opcode_congr hm rfl).trans hop),
      fieldReg_congr_of_masked (lo := 6) hm rfl]
  · have hop := ofBits_opcode_of_masked (o := .jsr) h rfl rfl
    have hform : field 11 1 w = 0#1 := field_of_masked h rfl
    have hform' : field 11 1 w' = field 11 1 w := field_congr_of_masked hm.symm rfl
    rw [decodePrimary_jsrr hop hform, fieldReg_congr_of_masked (lo := 6) hm rfl,
      decodePrimary_jsrr ((ofBits_opcode_congr hm rfl).trans hop) (hform'.trans hform)]
  · have hop := ofBits_opcode_of_masked (o := .trap) h rfl rfl
    rw [decodePrimary_trap hop, decodePrimary_trap ((ofBits_opcode_congr hm rfl).trans hop),
      field_congr_of_masked (lo := 0) (len := 8) hm rfl]
  · rcases h with h | h
    · have hop := ofBits_opcode_of_masked (o := .res1000) h rfl rfl
      rw [decodePrimary_res1000 hop,
        decodePrimary_res1000 ((ofBits_opcode_congr hm rfl).trans hop)]
    · have hop := ofBits_opcode_of_masked (o := .res1101) h rfl rfl
      rw [decodePrimary_res1101 hop,
        decodePrimary_res1101 ((ofBits_opcode_congr hm rfl).trans hop)]

/-- Settles O7: the most specific spelling is a spelling, and two spellings have one word and one
effect. -/
theorem spellingsOfOneWordRunAlike : Obligations.SpellingsOfOneWordRunAlike :=
  fun i s => ⟨(refinesTo_canonical i).encode_eq, (refinesTo_canonical i).exec_eq s⟩

/-- Settles O1: the decoder run on each word. -/
theorem sampleWordsDecodeAsTheirExamplesSay : Obligations.SampleWordsDecodeAsTheirExamplesSay := by
  unfold Obligations.SampleWordsDecodeAsTheirExamplesSay
  decide

/-- Settles O23: these words decode to NOP or a reserved row, whose arms answer the advanced
state. -/
theorem nopAndReservedOnlyAdvance : Obligations.NopAndReservedOnlyAdvance := by
  refine ⟨fun _ _ => rfl, fun _ => ⟨rfl, rfl⟩, fun s hr hrun hw => ?_⟩
  rw [step_running hr hrun]
  rcases hw with h | h | h
  · rw [decode, decodePrimary_res1000 (ofBits_opcode_of_div h)]
    rfl
  · rw [decode, decodePrimary_res1101 (ofBits_opcode_of_div h)]
    rfl
  · rw [decode_eq_nop (by omega)]
    rfl

end Sys2Proof.Machine
end

/-! ## The step cycle (40_step_cycle.md)

When a routine and an instruction are taken, sign extension by the number and bit by bit, and the
obligations of that chapter. -/

section
namespace Sys2Proof.Machine

open Sys2Proof

/-! ### The step -/

/-- The advance, by the pc's number (10_state.md R25). -/
theorem advance_eq_ofNat (s : State) :
    s.advance = { s with pc := BitVec.ofNat 16 (s.pc.toNat + 1) } := by
  have hpc : s.pc + 1 = BitVec.ofNat 16 (s.pc.toNat + 1) := by
    rw [BitVec.ofNat_add, BitVec.ofNat_toNat, BitVec.setWidth_eq]
    rfl
  rw [← hpc]
  rfl

theorem putsStops_iff (w : Word) : putsStops w = true ↔ w = 0 := decide_eq_true_iff

theorem putspStops_iff (w : Word) : putspStops w = true ↔ w.toNat % 256 = 0 := by
  have hlow : (lowByte w).toNat = w.toNat % 256 := BitVec.toNat_ofNat ..
  rw [putspStops, decide_eq_true_iff, ← hlow, ← BitVec.toNat_inj]
  rfl

/-- An input routine is taken exactly when the console offers a character (44_trap.md R176). -/
theorem inputRoutine_taken_iff {echo : Bool} {s : State} :
    (∃ t, inputRoutine echo s = .next t) ↔ s.conIn ≠ [] := by
  constructor
  · rintro ⟨t, h⟩ hin
    rw [inputRoutine_held hin] at h
    cases h
  · intro hin
    obtain ⟨c, rest, hcons⟩ := List.exists_cons_of_ne_nil hin
    exact ⟨_, inputRoutine_next hcons⟩

/-- A string routine ends exactly when some cell of memory stops it (44_trap.md R180). -/
theorem stringRoutine_taken_iff {stops : Word → Bool} {chars : Word → List Byte} {s : State} :
    (∃ t, stringRoutine stops chars s = .next t) ↔ ∃ a : Word, stops (s.readCell a) = true := by
  constructor
  · rintro ⟨t, h⟩
    by_contra hnone
    rw [stringRoutine_endless.mpr fun a => by simpa using not_exists.mp hnone a] at h
    cases h
  · rintro ⟨a, ha⟩
    cases hs : stringFrom stops chars s.mem Config.memSize (s.getReg 0) with
    | some cs => exact ⟨_, stringRoutine_next hs⟩
    | none => exact absurd (stringFrom_eq_none.mp hs a) (by simpa [State.readCell] using ha)

/-- An instruction other than the generic TRAP is taken unless its routine is held or never ends. -/
theorem exec_taken_iff {i : Instr} (htrap : ∀ v, i ≠ .trap v) (s : State) :
    (∃ t, exec i s = .next t) ↔ (i = .getc ∨ i = .inEcho → s.conIn ≠ []) ∧
      (i = .puts → PutsCanStop s) ∧ (i = .putsp → PutspCanStop s) := by
  cases i with
  | trap v => exact absurd rfl (htrap v)
  | getc => exact inputRoutine_taken_iff.trans (by simp)
  | inEcho => exact inputRoutine_taken_iff.trans (by simp)
  | puts => exact stringRoutine_taken_iff.trans (by simp [putsStops_iff, PutsCanStop])
  | putsp => exact stringRoutine_taken_iff.trans (by simp [putspStops_iff, PutspCanStop])
  | _ => exact ⟨fun _ => by simp, fun _ => ⟨_, rfl⟩⟩

/-! ### Sign extension -/

/-- The number of a sign-extended field: the field's, and ones above it where its top bit is one
(R116). -/
theorem toNat_sext {n : Nat} (v : BitVec n) (hn : n ≤ 16) :
    (sext v).toNat = v.toNat + if 2 ^ (n - 1) ≤ v.toNat then 65536 - 2 ^ n else 0 := by
  simp [sext, BitVec.toNat_signExtend, BitVec.toNat_setWidth_of_le hn, BitVec.msb_eq_decide]

/-- The literal formula bit by bit: the value, and its bit `n - 1` from bit `n` up (R117). -/
theorem getLsbD_signExtendFormula (value : Word) (n : Nat) {k : Nat} (hk : k < 16) :
    (signExtendFormula value n).getLsbD k =
      (value.getLsbD k || (decide (n ≤ k) && value.getLsbD (n - 1))) := by
  have hones : (0xFFFF#16 <<< n).getLsbD k = decide (n ≤ k) := by
    have hones16 : 0xFFFF#16 = BitVec.allOnes 16 := rfl
    have hlt : k - n < 16 := by omega
    rw [hones16, BitVec.getLsbD_shiftLeft, BitVec.getLsbD_allOnes]
    simp [hk, hlt, ← decide_not]
  unfold signExtendFormula
  split
  · next hsign => simp [hones, hsign]
  · next hsign => simp [hsign]

/-- On an in-contract value the literal formula is the sign extension of the field (R117). -/
theorem signExtendFormula_setWidth {n : Nat} (v : BitVec n) (h1 : 1 ≤ n) (h16 : n ≤ 16) :
    signExtendFormula (v.setWidth 16) n = sext v := by
  refine BitVec.eq_of_getLsbD_eq fun k hk => ?_
  rw [getLsbD_signExtendFormula _ _ hk, sext, BitVec.getLsbD_signExtend]
  have hlast : n - 1 < 16 := by omega
  by_cases hkn : k < n
  · simp [hk, hkn]
  · have hnk : n ≤ k := by omega
    simp [hk, hkn, hnk, hlast, BitVec.msb_eq_getLsbD_last]

/-- The formula keeps the top bit of the field, so a second use adds nothing (R118). -/
theorem signExtendFormula_idem (value : Word) {n : Nat} (h1 : 1 ≤ n) (h16 : n ≤ 16) :
    signExtendFormula (signExtendFormula value n) n = signExtendFormula value n := by
  have hsign : (signExtendFormula value n).getLsbD (n - 1) = value.getLsbD (n - 1) := by
    have hbelow : ¬ n ≤ n - 1 := by omega
    simp [getLsbD_signExtendFormula value n (k := n - 1) (by omega), hbelow]
  refine BitVec.eq_of_getLsbD_eq fun k hk => ?_
  rw [getLsbD_signExtendFormula _ _ hk, hsign, getLsbD_signExtendFormula _ _ hk, Bool.or_assoc,
    Bool.or_self]

/-- The block in its widths (R117). -/
theorem signExtendUtility_of_width (value : Word) {n : Nat} (h1 : 1 ≤ n) (h16 : n ≤ 16) :
    signExtendUtility value n = .ok (signExtendFormula value n) := if_pos ⟨h1, h16⟩

/-! ### The obligations -/

/-- Settles O12: the step is the decoded instruction's, whose routine alone can hold it or never
end. -/
theorem stepIsTakenExactlyWhenEnabled : Obligations.StepIsTakenExactlyWhenEnabled := by
  intro s
  have hexec := exec_taken_iff (decode_ne_trap s.fetch) s.advance
  constructor
  · rintro ⟨t, h⟩
    obtain ⟨hr, hrun, ht⟩ := step_cases h
    exact ⟨hr, hrun, hexec.mp ⟨t, ht⟩⟩
  · rintro ⟨hr, hrun, henabled⟩
    obtain ⟨t, ht⟩ := hexec.mpr henabled
    exact ⟨t, (step_running hr hrun).trans ht⟩

/-- Settles O14: the number of the sign-extended field with its top bit zero and one. -/
theorem sextKeepsTheSignedValue : Obligations.SextKeepsTheSignedValue := by
  intro n v _ h16
  refine ⟨fun hlt => ?_, fun hge => ?_, BitVec.toInt_signExtend_of_le h16⟩
  · rw [toNat_sext v h16, if_neg (Nat.not_le.mpr hlt), Nat.add_zero]
  · rw [toNat_sext v h16, if_pos hge, Nat.add_comm]

/-- Settles O15: the block is the literal formula in its widths, and the formula is known bit by
bit. -/
theorem signExtendUtilityFollowsItsContract : Obligations.SignExtendUtilityFollowsItsContract := by
  refine ⟨fun n v h1 h16 => ?_, fun value n h1 h16 => ?_, fun value n hn => if_neg (by omega)⟩
  · rw [signExtendUtility_of_width _ h1 h16, signExtendFormula_setWidth v h1 h16]
  · exact ⟨_, signExtendUtility_of_width value h1 h16,
      fun k hk => getLsbD_signExtendFormula value n hk⟩

/-- Settles O16: the formula is idempotent at every width. -/
theorem signExtendUtilityIsIdempotent : Obligations.SignExtendUtilityIsIdempotent := by
  refine ⟨fun x n h1 h16 => ⟨_, signExtendUtility_of_width x h1 h16, ?_⟩, by decide, by decide⟩
  rw [signExtendUtility_of_width _ h1 h16, signExtendFormula_idem x h1 h16]

/-- Settles O10: a running step is `exec` after the advance. -/
theorem stepRunsTheDecodedInstruction : Obligations.StepRunsTheDecodedInstruction := by
  rintro s i hr hrun rfl
  rw [step_running hr hrun, advance_eq_ofNat]

/-- Settles O11: placing a word is one write at the pc, which the next fetch reads. -/
theorem placedWordRunsNext : Obligations.PlacedWordRunsNext := by
  refine ⟨fun s nbits w hn hr hrun => ?_, fun nbits w hn => if_neg (Nat.not_le.mpr hn)⟩
  let t := s.withFetchWord nbits w
  have hstored : StoredCell s.pc (tableWord nbits w) s t := storedCell_writeCell ..
  have hcell : t.readCell t.pc = tableWord nbits w := hstored.1
  refine ⟨decode (tableWord nbits w), if_pos hn, ?_, hstored⟩
  calc step t = exec (decode (t.readCell t.pc)) t.advance := step_running hr hrun
    _ = exec (decode (tableWord nbits w)) t.advance := by rw [hcell]

/-- Settles O17: the flag is that of the register's value, and `cond` is the one field written. -/
theorem setccTakesTheFlagOfTheRegister : Obligations.SetccTakesTheFlagOfTheRegister :=
  fun r s => ⟨flagOf_ofWord (s.getReg r), fun _ _ => rfl, rfl, fun _ _ => rfl, ⟨rfl, rfl⟩,
    ⟨rfl, rfl⟩⟩

end Sys2Proof.Machine
end

/-! ## Operate instructions (41_operate.md)

What a flag-setting write does, the operands' values by number and bit by bit, and the obligations
of that chapter. -/

section
namespace Sys2Proof.Machine

open Sys2Proof

/-! ### The write -/

/-- The end of every flag-setting instruction: the value and its flag, and nothing else
(40_step_cycle.md R120). -/
theorem wroteReg_setRegCc (dr : Reg) (v : Word) (s : State) :
    WroteReg dr v s (s.setRegCc dr v) := by
  refine ⟨by simp, by simpa using flagOf_ofWord v, fun q hq => ?_, rfl, fun _ _ => rfl, ⟨rfl, rfl⟩,
    ⟨rfl, rfl⟩⟩
  rw [State.getReg_setRegCc, if_neg (by simpa using hq)]

/-! ### The operands -/

/-- A word plus a sign-extended field is the modular sum of the signed values (R131). -/
theorem add_sext_eq_ofInt (a : Word) {n : Nat} (v : BitVec n) (hn : n ≤ 16) :
    a + sext v = BitVec.ofInt 16 (a.toInt + v.toInt) := by
  have hsext : (sext v).toInt = v.toInt := BitVec.toInt_signExtend_of_le hn
  rw [← hsext, BitVec.ofInt_add, BitVec.ofInt_toInt, BitVec.ofInt_toInt]

/-- A sign-extended field bit by bit: its top bit stands for the bits above it
(40_step_cycle.md R116). -/
theorem getLsbD_sext {n k : Nat} (v : BitVec n) (hk : k < 16) :
    (sext v).getLsbD k = v.getLsbD (min k (n - 1)) := by
  rw [sext, BitVec.getLsbD_signExtend]
  by_cases hkn : k < n
  · have hmin : min k (n - 1) = k := by omega
    simp [hk, hkn, hmin]
  · have hmin : min k (n - 1) = n - 1 := by omega
    simp [hk, hkn, hmin, BitVec.msb_eq_getLsbD_last]

/-- The complement is the distance from `0xFFFF` (R134). -/
theorem not_eq_ofNat (a : Word) : ~~~ a = BitVec.ofNat 16 (0xFFFF - a.toNat) := by
  have hnum : (~~~ a).toNat = 0xFFFF - a.toNat := BitVec.toNat_not
  rw [← hnum, BitVec.ofNat_toNat, BitVec.setWidth_eq]

/-! ### The two forms of an operation -/

/-- A word whose bit 5 chooses between two forms, by that bit's number (30_encoding.md R86). -/
theorem decode_of_form {w : Word} {i j : Instr} (hreg : field 5 1 w = 0#1 → decode w = i)
    (himm : field 5 1 w = 1#1 → decode w = j) :
    decode w = if w.toNat / 32 % 2 = 0 then i else j := by
  have hform {k : Nat} (hk : w.toNat / 32 % 2 = k) : field 5 1 w = BitVec.ofNat 1 k :=
    field_eq_of_toNat (lo := 5) hk
  split
  · next h => exact hreg (hform h)
  · next h => exact himm (hform (k := 1) (by omega))

/-! ### The obligations -/

/-- Settles O19: each form is one flag-setting write, of a sum that is the modular one. -/
theorem addWritesTheModularSum : Obligations.AddWritesTheModularSum := by
  refine ⟨fun w hw => ?_, fun dr sr1 sr2 s => ⟨_, rfl, ?_⟩, fun dr sr1 imm5 s => ⟨_, rfl, ?_⟩⟩
  · have hop : Opcode.ofBits (field 12 4 w) = .add := ofBits_opcode_of_div hw
    simp only [← fieldReg_eq_regAt]
    exact decode_of_form (fun hf => congrArg Instr.canonical (decodePrimary_addReg hop hf))
      (fun hf => congrArg Instr.canonical (decodePrimary_addImm hop hf))
  · rw [← BitVec.add_def]
    exact wroteReg_setRegCc ..
  · rw [← add_sext_eq_ofInt _ _ (by decide)]
    exact wroteReg_setRegCc ..

/-- Settles O20: each form is one flag-setting write, of a conjunction known bit by bit. -/
theorem andWritesTheBitwiseConjunction : Obligations.AndWritesTheBitwiseConjunction := by
  refine ⟨fun w hop => ?_,
    fun dr sr1 sr2 s => ⟨_, _, rfl, wroteReg_setRegCc .., fun k _ => BitVec.getLsbD_and⟩,
    fun dr sr1 imm5 s => ⟨_, _, rfl, wroteReg_setRegCc .., fun k hk => ?_⟩⟩
  · simp only [← fieldReg_eq_regAt]
    exact decode_of_form (fun hf => congrArg Instr.canonical (decodePrimary_andReg hop hf))
      (fun hf => congrArg Instr.canonical (decodePrimary_andImm hop hf))
  · rw [BitVec.getLsbD_and, getLsbD_sext imm5 hk]

/-- Settles O21: one flag-setting write, of the complement by its number. -/
theorem notWritesTheComplement : Obligations.NotWritesTheComplement := by
  refine ⟨fun w hop => ?_, fun dr sr s => ⟨_, rfl, ?_⟩⟩
  · rw [decode, decodePrimary_not hop, fieldReg_eq_regAt, fieldReg_eq_regAt]
    rfl
  · rw [← not_eq_ofNat]
    exact wroteReg_setRegCc ..

end Sys2Proof.Machine
end

/-! ## Control instructions (42_control.md)

What a jump and a linked jump do, the branch by its test, the step of JSR and of RET, and the
obligations of that chapter. -/

section
namespace Sys2Proof.Machine

open Sys2Proof

/-! ### Transfers of control -/

/-- A jump that does not link: the pc and nothing else (R141). -/
theorem transferred_setPc (target : Word) (s : State) :
    Transferred target [] s (s.setPc target) :=
  ⟨rfl, fun _ _ => rfl, rfl, fun _ _ => rfl, ⟨rfl, rfl⟩, ⟨rfl, rfl⟩⟩

/-- A jump after the link: the pc and `x[7]`, and nothing else (R143). -/
theorem transferred_link_setPc (target : Word) (s : State) :
    Transferred target [7] s (s.link.setPc target) := by
  refine ⟨rfl, fun q hq => ?_, rfl, fun _ _ => rfl, ⟨rfl, rfl⟩, ⟨rfl, rfl⟩⟩
  rw [State.getReg_setPc, State.getReg_link, if_neg (by simpa using hq)]

/-- `x[7]` after a linked jump is the pc of before (10_state.md R23). -/
theorem getReg_link_setPc (target : Word) (s : State) :
    (s.link.setPc target).getReg 7 = s.pc := by simp

/-! ### The instructions -/

section
variable {nzp : BitVec 3} {s : State}

theorem exec_br_taken (h : s.condHolds nzp = true) (off : BitVec 9) :
    exec (.br nzp off) s = .next (s.setPc (branchTarget off s)) := by
  simp [exec, execBr, h]

theorem exec_br_not_taken (h : ¬s.condHolds nzp = true) (off : BitVec 9) :
    exec (.br nzp off) s = .next s := by
  simp [exec, execBr, h]

end

/-- A condition field of all ones selects every flag (R140). -/
theorem State.condHolds_all (s : State) : s.condHolds 0b111 = true := by
  rw [State.condHolds_iff]
  cases s.cond <;> decide

/-- An empty condition field selects none (R140). -/
theorem State.not_condHolds_empty (s : State) : ¬s.condHolds 0b000 = true := by
  simp [State.condHolds_iff]

/-- JSR jumps from the pc that it links (R143). -/
theorem exec_jsr (off : BitVec 11) (s : State) :
    exec (.jsr off) s = .next (s.link.setPc (s.pc + sext off)) := rfl

/-- JSRR reads the base after the link, which it finds in `x[7]` (R144). -/
theorem exec_jsrr (base : Reg) (s : State) :
    exec (.jsrr base) s =
      .next (s.link.setPc (if base = 7 then s.pc else s.getReg base)) := by
  rw [← State.getReg_link]
  rfl

/-! ### The round trip of a call (R142) -/

/-- The step of a JSR leaves the address of the next instruction in `x[7]`. -/
theorem getReg_of_step_jsr {s t : State} {off : BitVec 11}
    (hd : decode (s.readCell s.pc) = .jsr off) (h : step s = .next t) :
    t.getReg 7 = s.pc + 1 := by
  obtain ⟨-, -, hexec⟩ := step_cases h
  rw [hd, exec_jsr] at hexec
  obtain rfl := Host.Outcome.next.inj hexec
  exact getReg_link_setPc _ s.advance

/-- The step of a RET goes where `x[7]` points. -/
theorem pc_of_step_ret {s t : State} (hd : decode (s.readCell s.pc) = .ret)
    (h : step s = .next t) : t.pc = s.getReg 7 := by
  obtain ⟨-, -, hexec⟩ := step_cases h
  rw [hd] at hexec
  obtain rfl := Host.Outcome.next.inj hexec
  rfl

/-! ### The obligations -/

/-- Settles O25: the JSR's step leaves the return address in `x[7]`, and the RET's step goes to what
it finds there. -/
theorem retReturnsToTheInstructionAfterJsr : Obligations.RetReturnsToTheInstructionAfterJsr := by
  refine ⟨fun s => ⟨_, rfl, transferred_setPc ..⟩, by decide, by decide, fun _ => rfl,
    fun s t later u off _ _ hjsr hcall hkept hret hreturn => ?_⟩
  calc u.pc = later.getReg 7 := pc_of_step_ret hret hreturn
    _ = t.getReg 7 := hkept
    _ = s.pc + 1 := getReg_of_step_jsr hjsr hcall

/-- Settles O22: the test holds exactly on a selected flag, and chooses between the jump and no
change. -/
theorem branchIsTakenExactlyOnItsFlags : Obligations.BranchIsTakenExactlyOnItsFlags := by
  refine ⟨fun w hop => ?_, fun nzp off s => ?_, fun off s =>
    ⟨exec_br_taken s.condHolds_all off, exec_br_not_taken s.not_condHolds_empty off⟩⟩
  · rw [decodePrimary_br hop, field_eq_ofNat 9]
    rfl
  · rw [← State.condHolds_iff, ← add_sext_eq_ofInt _ _ (by decide)]
    by_cases hflag : s.condHolds nzp = true
    · exact ⟨_, exec_br_taken hflag off, fun _ => transferred_setPc .., fun h => absurd hflag h⟩
    · exact ⟨_, exec_br_not_taken hflag off, fun h => absurd h hflag, fun _ => rfl⟩

/-- Settles O24: one jump, which does not link. -/
theorem jmpGoesToTheBaseRegister : Obligations.JmpGoesToTheBaseRegister := by
  refine ⟨fun w hop => ?_, fun base s => ⟨_, rfl, transferred_setPc ..⟩⟩
  rw [decodePrimary_jmp hop, fieldReg_eq_regAt]

/-- Settles O26: one linked jump, to a sum that is the modular one. -/
theorem jsrLinksAndJumps : Obligations.JsrLinksAndJumps := by
  refine ⟨fun w hop hw => ?_, fun off s => ⟨_, exec_jsr off s, getReg_link_setPc _ s, ?_⟩⟩
  · have hform : field 11 1 w = 1#1 := field_eq_of_toNat (lo := 11) hw
    exact congrArg Instr.canonical (decodePrimary_jsr hop hform)
  · rw [← add_sext_eq_ofInt _ _ (by decide)]
    exact transferred_link_setPc ..

/-- Settles O27: one linked jump, to what the base holds after the link. -/
theorem jsrrLinksBeforeItReadsTheBase : Obligations.JsrrLinksBeforeItReadsTheBase := by
  refine ⟨fun w hop hw => ?_, fun base s =>
    ⟨_, exec_jsrr base s, getReg_link_setPc _ s, transferred_link_setPc ..⟩⟩
  have hform : field 11 1 w = 0#1 := field_eq_of_toNat (lo := 11) hw
  rw [decode, decodePrimary_jsrr hop hform, fieldReg_eq_regAt]
  rfl

end Sys2Proof.Machine
end

/-! ## Loads and stores (43_load_store.md)

The words of the two formats, the addressing modes as modular sums, and the obligations of that
chapter. -/

section
namespace Sys2Proof.Machine

open Sys2Proof

/-! ### The words of the two formats (30_encoding.md R82) -/

/-- A row of format `PCREL` that no other row refines: its fields by shift and mask. -/
theorem decode_of_pcrel {w : Word} {row : Reg → BitVec 9 → Instr}
    (h : decodePrimary w = row (fieldReg 9 w) (field 0 9 w))
    (hrow : ∀ r off, (row r off).canonical = row r off) :
    decode w = row (regAt w 9) (BitVec.ofNat 9 w.toNat) := by
  rw [decode, h, hrow, fieldReg_eq_regAt]
  rfl

/-- A row of format `BASEOFF`: its fields by shift and mask. -/
theorem decode_of_baseoff {w : Word} {row : Reg → Reg → BitVec 6 → Instr}
    (h : decodePrimary w = row (fieldReg 9 w) (fieldReg 6 w) (field 0 6 w))
    (hrow : ∀ r base off, (row r base off).canonical = row r base off) :
    decode w = row (regAt w 9) (regAt w 6) (BitVec.ofNat 6 w.toNat) := by
  rw [decode, h, hrow, fieldReg_eq_regAt, fieldReg_eq_regAt]
  rfl

/-! ### The addressing modes (R157) -/

section
variable (s : State)

theorem eaPcRel_eq_ofInt (off : BitVec 9) :
    eaPcRel off s = BitVec.ofInt 16 (s.pc.toInt + off.toInt) :=
  add_sext_eq_ofInt s.pc off (by decide)

theorem eaIndirect_eq_readCell (off : BitVec 9) :
    eaIndirect off s = s.readCell (BitVec.ofInt 16 (s.pc.toInt + off.toInt)) :=
  congrArg s.readCell (eaPcRel_eq_ofInt s off)

theorem eaBase_eq_ofInt (base : Reg) (off : BitVec 6) :
    eaBase base off s = BitVec.ofInt 16 ((s.getReg base).toInt + off.toInt) :=
  add_sext_eq_ofInt (s.getReg base) off (by decide)

end

/-- Modulo 65,536 it does not matter whether a word in a sum is read signed or unsigned
(20_memory.md R55). -/
theorem ofInt_toInt_add (a : Word) (k : Int) :
    BitVec.ofInt 16 (a.toInt + k) = BitVec.ofInt 16 (a.toNat + k) := by
  have hnat : BitVec.ofInt 16 a.toNat = a := by
    rw [BitVec.ofInt_natCast, BitVec.ofNat_toNat, BitVec.setWidth_eq]
  rw [BitVec.ofInt_add, BitVec.ofInt_add, BitVec.ofInt_toInt, hnat]

/-! ### The obligations -/

/-- Settles O28: each address is a signed modular sum, which is the unsigned one. -/
theorem effectiveAddressesAreModularSums : Obligations.EffectiveAddressesAreModularSums := by
  intro s off9 off6 base
  simp only [← ofInt_toInt_add]
  exact ⟨eaPcRel_eq_ofInt s off9, eaIndirect_eq_readCell s off9, eaBase_eq_ofInt s base off6⟩

/-- Settles O29: one flag-setting write, of the cell at the pc-relative address. -/
theorem ldLoadsThePcRelativeCell : Obligations.LdLoadsThePcRelativeCell := by
  refine ⟨fun w hop => decode_of_pcrel (decodePrimary_ld hop) (fun _ _ => rfl),
    fun dr off s => ⟨_, rfl, ?_⟩⟩
  rw [← eaPcRel_eq_ofInt]
  exact wroteReg_setRegCc ..

/-- Settles O30: one flag-setting write, of the cell that the pointer cell names. -/
theorem ldiLoadsThroughThePointerCell : Obligations.LdiLoadsThroughThePointerCell := by
  refine ⟨fun w hop => decode_of_pcrel (decodePrimary_ldi hop) (fun _ _ => rfl),
    fun dr off s => ⟨_, rfl, ?_⟩⟩
  rw [← eaIndirect_eq_readCell]
  exact wroteReg_setRegCc ..

/-- Settles O31: one flag-setting write, of the cell at the sum with the base's old value. -/
theorem ldrLoadsTheBaseOffsetCell : Obligations.LdrLoadsTheBaseOffsetCell := by
  refine ⟨fun w hop => decode_of_baseoff (decodePrimary_ldr hop) (fun _ _ _ => rfl),
    fun dr base off s => ⟨_, rfl, ?_⟩⟩
  rw [← eaBase_eq_ofInt]
  exact wroteReg_setRegCc ..

/-- Settles O32: one flag-setting write, of the address, which the state gives without its
memory. -/
theorem leaWritesTheAddressAndItsFlag : Obligations.LeaWritesTheAddressAndItsFlag := by
  refine ⟨fun w hop => decode_of_pcrel (decodePrimary_lea hop) (fun _ _ => rfl),
    fun dr off s => ⟨_, rfl, ?_, fun _ => rfl⟩⟩
  rw [← eaPcRel_eq_ofInt]
  exact wroteReg_setRegCc ..

/-- Settles O33: one cell written, at the pc-relative address. -/
theorem stStoresThePcRelativeCell : Obligations.StStoresThePcRelativeCell :=
  ⟨fun _ hop => decode_of_pcrel (decodePrimary_st hop) (fun _ _ => rfl),
    fun _ off s => ⟨_, rfl, storedCell_writeCell .., eaPcRel_eq_ofInt s off⟩⟩

/-- Settles O34: one cell written, the one that the pointer cell names. -/
theorem stiStoresThroughThePointerCell : Obligations.StiStoresThroughThePointerCell :=
  ⟨fun _ hop => decode_of_pcrel (decodePrimary_sti hop) (fun _ _ => rfl),
    fun _ off s => ⟨_, rfl, storedCell_writeCell .., eaIndirect_eq_readCell s off⟩⟩

/-- Settles O35: one cell written, at base plus offset. -/
theorem strStoresTheBaseOffsetCell : Obligations.StrStoresTheBaseOffsetCell :=
  ⟨fun _ hop => decode_of_baseoff (decodePrimary_str hop) (fun _ _ _ => rfl),
    fun _ base off s => ⟨_, rfl, storedCell_writeCell .., eaBase_eq_ofInt s base off⟩⟩

end Sys2Proof.Machine
end

/-! ## TRAP (44_trap.md)

What the trap entry, the input routines and the string routines leave behind, for either spelling of
a routine's instruction, and the obligations of that chapter. -/

section
namespace Sys2Proof.Machine

open Sys2Proof

/-! ### The frame of a trap (R170)

`Trapped` does not speak of the console and the run state, so what it says of a state it says of that
state after a put or a halt too. -/

section
variable {s t : State}

/-- The entry by itself: the link and nothing else. -/
theorem trapped_trapEntry (s : State) : Trapped [] s s.trapEntry := by
  refine ⟨by simp, rfl, fun q hq => ?_, rfl, fun _ => by simp, rfl⟩
  rw [State.getReg_trapEntry, if_neg (by simpa using hq)]

/-- The entry, then the character into `x[0]`. -/
theorem trapped_takeChar (c : Byte) (s : State) : Trapped [0] s (s.trapEntry.takeChar c) := by
  refine ⟨by simp, rfl, fun q hq => ?_, rfl, fun _ _ => rfl, rfl⟩
  have hne : q ≠ 7 ∧ q ≠ 0 := by simpa using hq
  rw [State.getReg_takeChar, if_neg hne.2, State.getReg_trapEntry, if_neg hne.1]

theorem Trapped.consolePut {written : List Reg} (h : Trapped written s t) (cs : List Byte) :
    Trapped written s (t.consolePut cs) := h

theorem Trapped.halt {written : List Reg} (h : Trapped written s t) :
    Trapped written s t.halt := h

theorem trapped_of_inputRoutine {echo : Bool} (h : inputRoutine echo s.trapEntry = .next t) :
    Trapped [0] s t := by
  obtain ⟨c, rest, hin, -⟩ := inputRoutine_cases h
  obtain rfl := Host.Outcome.next.inj ((inputRoutine_next hin).symm.trans h)
  exact (trapped_takeChar c s).consolePut _

theorem trapped_of_stringRoutine {stops : Word → Bool} {chars : Word → List Byte}
    (h : stringRoutine stops chars s.trapEntry = .next t) : Trapped [] s t := by
  obtain ⟨cs, -, rfl⟩ := stringRoutine_cases h
  exact (trapped_trapEntry s).consolePut cs

/-- What TRAP with any vector leaves alone: its routine's vector says whether `x[0]` is kept. -/
theorem trapped_of_execTrap {v : BitVec 8} (h : execTrap v s = .next t) :
    Trapped (if 0 ∈ writesOf (.trap v) then [0] else []) s t := by
  cases hr : TrapRoutine.ofVector v with
  | none =>
    have hinput : ¬(v = 0x20 ∨ v = 0x23) := by rintro (rfl | rfl) <;> cases hr
    have ht : execTrap v s = .next s.trapEntry := by simp [execTrap, trapDispatch, hr]
    obtain rfl := Host.Outcome.next.inj (ht.symm.trans h)
    rw [show writesOf (.trap v) = [7] from if_neg hinput]
    exact trapped_trapEntry s
  | some r =>
    obtain rfl := eq_vector_of_ofVector hr
    cases r with
    | getc => exact trapped_of_inputRoutine h
    | inEcho => exact trapped_of_inputRoutine h
    | out =>
      obtain rfl := Host.Outcome.next.inj h
      exact (trapped_trapEntry s).consolePut _
    | puts => exact trapped_of_stringRoutine h
    | putsp => exact trapped_of_stringRoutine h
    | halt =>
      obtain rfl := Host.Outcome.next.inj h
      exact (trapped_trapEntry s).halt

/-- Every row of TRAP runs as the generic TRAP with a vector, whose registers it writes; the undefined
row, which does not look at its vector, as one with a vector that selects no routine. -/
theorem exists_execTrap_of_isTrap {i : Instr} (hi : isTrap i = true) :
    ∃ v, writesOf i = writesOf (.trap v) ∧ ∀ s, exec i s = execTrap v s := by
  cases i with
  | trap v => exact ⟨v, rfl, fun _ => rfl⟩
  | getc => exact ⟨0x20, rfl, fun _ => rfl⟩
  | out => exact ⟨0x21, rfl, fun _ => rfl⟩
  | puts => exact ⟨0x22, rfl, fun _ => rfl⟩
  | inEcho => exact ⟨0x23, rfl, fun _ => rfl⟩
  | putsp => exact ⟨0x24, rfl, fun _ => rfl⟩
  | halt => exact ⟨0x25, rfl, fun _ => rfl⟩
  | trapUndefined => exact ⟨0x00, rfl, fun _ => rfl⟩
  | _ => cases hi

/-- What every row of TRAP leaves alone (R170, R172). -/
theorem trapped_of_isTrap {i : Instr} (hi : isTrap i = true) (h : exec i s = .next t) :
    Trapped (if 0 ∈ writesOf i then [0] else []) s t := by
  obtain ⟨v, hwrites, hexec⟩ := exists_execTrap_of_isTrap hi
  rw [hwrites]
  exact trapped_of_execTrap ((hexec s).symm.trans h)

/-- No row of TRAP is a branch or sets the flags (R172). -/
theorem isBranch_and_flagRegOf_of_isTrap {i : Instr} (hi : isTrap i = true) :
    isBranch i = false ∧ flagRegOf i = none := by
  cases i with
  | trap | getc | out | puts | inEcho | putsp | halt | trapUndefined => exact ⟨rfl, rfl⟩
  | _ => cases hi

end

/-! ### Vectors and halves of a cell by their numbers -/

/-- The vectors of R183 select no routine. -/
theorem ofVector_eq_none_of_range {v : BitVec 8} (h : v.toNat ≤ 0x1F ∨ 0x26 ≤ v.toNat) :
    TrapRoutine.ofVector v = none := by
  rw [TrapRoutine.ofVector_eq_none, vectorUndefined, Bool.or_eq_true, decide_eq_true_iff,
    decide_eq_true_iff]
  omega

theorem lowByte_eq_ofNat (w : Word) : lowByte w = BitVec.ofNat 8 w.toNat := rfl

theorem highByte_eq_ofNat (w : Word) : highByte w = BitVec.ofNat 8 (w.toNat / 256) :=
  congrArg (BitVec.ofNat 8) (Nat.shiftRight_eq_div_pow w.toNat 8)

theorem highByte_eq_zero_iff (w : Word) : highByte w = 0x00 ↔ w.toNat / 256 = 0 := by
  have hw : w.toNat < 65536 := w.isLt
  rw [highByte_eq_ofNat, ← BitVec.toNat_inj, BitVec.toNat_ofNat]
  show w.toNat / 256 % 256 = 0 ↔ w.toNat / 256 = 0
  omega

/-- The characters that PUTSP puts for a cell, by the cell's number (R179). -/
theorem putspChars_eq (w : Word) :
    putspChars w = if w.toNat / 256 = 0 then [BitVec.ofNat 8 w.toNat]
      else [BitVec.ofNat 8 w.toNat, BitVec.ofNat 8 (w.toNat / 256)] := by
  simp only [putspChars, highByte_eq_zero_iff]
  rw [highByte_eq_ofNat, lowByte_eq_ofNat]

/-! ### GETC and IN, PUTS and PUTSP, for either spelling -/

section
variable {i : Instr} {s : State}

/-- An input trap with a character offered (R173, R178). -/
theorem inputTrap_next {echo : Bool} (hexec : exec i s = inputRoutine echo s.trapEntry)
    {c : Byte} {rest : List Byte} (hin : s.conIn = c :: rest) :
    ∃ t, exec i s = .next t ∧ Trapped [0] s t ∧ (t.getReg 0).toNat = c.toNat ∧ t.conIn = rest ∧
      t.conOut = s.conOut ++ (if echo then [c] else []) ∧ t.run = s.run := by
  refine ⟨_, hexec.trans (inputRoutine_next hin), (trapped_takeChar c s).consolePut _, ?_, ?_,
    rfl, rfl⟩
  · have hc : c.toNat < 65536 := Nat.lt_trans c.isLt (by decide)
    simp [zext8, Nat.mod_eq_of_lt hc]
  · simp [State.takeChar, hin]

/-- The cell that a string routine reads after `k` others (R177, R179). -/
def State.stringCell (s : State) (k : Nat) : Word := s.readCell (s.getReg 0 + BitVec.ofNat 16 k)

theorem State.stringCell_trapEntry (s : State) (k : Nat) :
    s.trapEntry.stringCell k = s.stringCell k := by simp [State.stringCell]

variable {stops : Word → Bool} {chars : Word → List Byte} {Stop : Word → Prop}
variable (hexec : exec i s = stringRoutine stops chars s.trapEntry)
variable (hstops : ∀ w, stops w = true ↔ Stop w)
include hexec hstops

/-- A string trap whose string ends: the cells before the first one that stops it. -/
theorem stringTrap_next {n : Nat} (hn : n < 65536) (hstop : Stop (s.stringCell n))
    (hbefore : ∀ k, k < n → ¬Stop (s.stringCell k)) :
    ∃ t, exec i s = .next t ∧ Trapped [] s t ∧ t.conIn = s.conIn ∧ t.run = s.run ∧
      t.conOut = s.conOut ++ (List.range n).flatMap (fun k => chars (s.stringCell k)) := by
  have hfirst : stops (s.trapEntry.stringCell n) = true := by
    rw [State.stringCell_trapEntry, hstops]
    exact hstop
  have hrun : ∀ k, k < n → stops (s.trapEntry.stringCell k) = false := fun k hk => by
    rw [State.stringCell_trapEntry, Bool.eq_false_iff, ne_eq, hstops]
    exact hbefore k hk
  refine ⟨_, hexec.trans (stringRoutine_next (stringFrom_eq_some.mpr ⟨n, hn, hfirst, hrun, rfl⟩)),
    (trapped_trapEntry s).consolePut _, rfl, rfl, ?_⟩
  simp only [← State.stringCell_trapEntry s]
  rfl

/-- A string trap with no cell in memory to stop it (R180). -/
theorem stringTrap_endless (hnone : ¬∃ a, Stop (s.readCell a)) :
    exec i s = .fault .stringNeverEnds := by
  rw [hexec, stringRoutine_endless]
  intro b
  rw [Bool.eq_false_iff, ne_eq, hstops]
  exact fun hb => hnone ⟨b, hb⟩

end

/-! ### The obligations -/

/-- Settles O36: each routine comes after the entry and keeps its frame, and no row of TRAP is among
the readers or the writers of `cond` (O18). -/
theorem everyTrapLinksAndStaysInLine : Obligations.EveryTrapLinksAndStaysInLine := by
  intro i s t hi h
  refine ⟨trapped_of_isTrap hi h, fun c => ?_⟩
  obtain ⟨hbranch, hflag⟩ := isBranch_and_flagRegOf_of_isTrap hi
  have hcond := onlySevenWriteAndOnlyBranchReadsFlags.2 i s t c hbranch h
  rw [hflag] at hcond
  exact ⟨_, hcond, rfl⟩

/-- Settles O40: a string that stops on a whole cell of zero, one character for a cell. -/
theorem putsPutsTheCellsBeforeTheZeroCell : Obligations.PutsPutsTheCellsBeforeTheZeroCell := by
  intro i s hi
  have hexec : exec i s = stringRoutine putsStops putsChars s.trapEntry := by
    rcases hi with rfl | rfl <;> rfl
  refine ⟨fun n hn hzero hbefore => ?_, stringTrap_endless hexec putsStops_iff⟩
  have hnext := stringTrap_next hexec putsStops_iff hn hzero hbefore
  simp only [putsChars, lowByte_eq_ofNat, ← List.map_eq_flatMap] at hnext
  exact hnext

/-- Settles O41: a string that stops on a low byte of zero, one or two characters for a cell. -/
theorem putspPutsBothBytesBeforeTheZeroLowByte :
    Obligations.PutspPutsBothBytesBeforeTheZeroLowByte := by
  intro i s hi
  have hexec : exec i s = stringRoutine putspStops putspChars s.trapEntry := by
    rcases hi with rfl | rfl <;> rfl
  refine ⟨fun n hn hzero hbefore => ?_, stringTrap_endless hexec putspStops_iff⟩
  have hnext := stringTrap_next hexec putspStops_iff hn hzero hbefore
  simp only [putspChars_eq] at hnext
  exact hnext

/-- Settles O37: an input trap without an echo. -/
theorem getcReadsOneCharacterWithoutEcho : Obligations.GetcReadsOneCharacterWithoutEcho := by
  intro i s hi
  have hexec : exec i s = inputRoutine false s.trapEntry := by rcases hi with rfl | rfl <;> rfl
  refine ⟨fun c rest hin => ?_, fun hin t h => ?_⟩
  · simpa using inputTrap_next hexec hin
  · rw [hexec, inputRoutine_held (s := s.trapEntry) hin] at h
    cases h

/-- Settles O39: an input trap with an echo. -/
theorem inReadsOneCharacterAndEchoesIt : Obligations.InReadsOneCharacterAndEchoesIt := by
  intro i s hi
  have hexec : exec i s = inputRoutine true s.trapEntry := by rcases hi with rfl | rfl <;> rfl
  exact ⟨fun c rest hin => inputTrap_next hexec hin,
    fun hin => hexec.trans (inputRoutine_held hin)⟩

/-- Settles O38: after the entry, one put of the low byte of `x[0]`, which the link keeps. -/
theorem outPutsTheLowByte : Obligations.OutPutsTheLowByte := by
  intro i s hi
  have hexec : exec i s = outRoutine s.trapEntry := by rcases hi with rfl | rfl <;> rfl
  refine ⟨_, hexec, (trapped_trapEntry s).consolePut _, rfl, rfl, ?_⟩
  simp [lowByte_eq_ofNat]

/-- Settles O42: after the entry, `run` becomes HALTED and nothing else happens. -/
theorem haltHaltsAndPutsNothing : Obligations.HaltHaltsAndPutsNothing := by
  intro i s hi
  have hexec : exec i s = haltRoutine s.trapEntry := by rcases hi with rfl | rfl <;> rfl
  exact ⟨_, hexec, (trapped_trapEntry s).halt, rfl, rfl, rfl⟩

/-- Settles O43: the entry and no routine. -/
theorem undefinedVectorOnlyLinks : Obligations.UndefinedVectorOnlyLinks := by
  intro i v s hi hv
  have hnone := ofVector_eq_none_of_range hv
  have hexec : exec i s = .next s.trapEntry := by
    rcases hi with rfl | rfl
    · rfl
    · exact ((RefinesTo.undefined hnone).exec_eq s).symm
  exact ⟨_, hexec, trapped_trapEntry s, ⟨rfl, rfl⟩, rfl⟩

end Sys2Proof.Machine
end

/-! ## Reset, boot and the console's offer (70_reset_and_hazards.md)

A step in reset, an effect with more input offered, a step held for input, the cells that an image
load writes, the words of an image file, the boot order, and the obligations of that chapter. -/

section
namespace Sys2Proof.Machine

open Sys2Proof

/-! ### A step in reset (R230) -/

theorem noNext_step_of_resetLine {s : State} (h : s.resetLine = true) : NoNext (step s) := by
  intro t ht
  obtain ⟨hreset, -⟩ := step_cases ht
  rw [h] at hreset
  cases hreset

/-! ### More input offered (10_state.md R39, R40) -/

/-- A character offered later stays behind those offered before, so no effect takes it. -/
theorem Effect.offerChar_comm {i : Instr} {s : State} {u : State → State} (hu : Effect i s u)
    (c : Byte) : u (s.offerChar c) = (u s).offerChar c := by
  cases hu with
  | takeChar d put hin => simp [State.offerChar, State.takeChar, State.consolePut, hin]
  | _ => rfl

/-- A state with a character more to take agrees on all that an instruction reads. -/
theorem agreesFor_offerChar (i : Instr) (s : State) (c : Byte) : AgreesFor i s (s.offerChar c) :=
  { AgreesFor.refl i s with conIn := ⟨[c], rfl⟩ }

theorem stringRoutine_ne_held (stops : Word → Bool) (chars : Word → List Byte) (s : State) :
    stringRoutine stops chars s ≠ .fault .heldForInput := by
  unfold stringRoutine
  split <;> simp

/-- An input routine is held for want of a character only (44_trap.md R176). -/
theorem conIn_of_inputRoutine_held {echo : Bool} {s : State}
    (h : inputRoutine echo s = .fault .heldForInput) : s.conIn = [] := by
  by_contra hin
  obtain ⟨t, ht⟩ := inputRoutine_taken_iff (echo := echo).mpr hin
  rw [h] at ht
  cases ht

/-- An instruction other than the generic TRAP that is held for input runs an input routine. -/
theorem inputRoutine_of_exec_held {i : Instr} {s : State} (htrap : ∀ v, i ≠ .trap v)
    (h : exec i s = .fault .heldForInput) :
    s.conIn = [] ∧ ∃ echo, ∀ u, exec i u = inputRoutine echo u.trapEntry := by
  cases i with
  | trap v => exact absurd rfl (htrap v)
  | getc => exact ⟨conIn_of_inputRoutine_held (s := s.trapEntry) h, false, fun _ => rfl⟩
  | inEcho => exact ⟨conIn_of_inputRoutine_held (s := s.trapEntry) h, true, fun _ => rfl⟩
  | puts => exact (stringRoutine_ne_held _ _ _ h).elim
  | putsp => exact (stringRoutine_ne_held _ _ _ h).elim
  | _ => cases h

/-- A step that is held for input was enabled but for its instruction. -/
theorem exec_held_of_step_held {s : State} (h : step s = .fault .heldForInput) :
    s.resetLine = false ∧ s.run = .running ∧
      exec (decode (s.readCell s.pc)) s.advance = .fault .heldForInput := by
  unfold step at h
  split at h
  · cases h
  · next hr =>
    split at h
    · cases h
    · next hrun => exact ⟨by simpa using hr, hrun, h⟩

/-! ### The cells of an image load (R238) -/

/-- Successive cells: the address of the next one. -/
theorem add_ofNat_succ (a : Word) (k : Nat) :
    a + BitVec.ofNat 16 (k + 1) = a + 1 + BitVec.ofNat 16 k := by
  rw [Nat.add_comm k 1, BitVec.ofNat_add, ← BitVec.add_assoc]
  rfl

/-- Two offsets name one cell exactly when they are equal modulo the size of memory. -/
theorem add_ofNat_inj (a : Word) {i j : Nat} :
    a + BitVec.ofNat 16 i = a + BitVec.ofNat 16 j ↔ i % 65536 = j % 65536 := by
  rw [BitVec.add_right_inj, ← BitVec.toNat_inj, BitVec.toNat_ofNat, BitVec.toNat_ofNat]

/-- A cell that none of the words goes to reads as before. -/
theorem Memory.read_loadWords_of_ne {b : Word} {ws : List Word} {m : Memory} {a : Word}
    (h : ∀ i, i < ws.length → b ≠ a + BitVec.ofNat 16 i) :
    (m.loadWords a ws).read b = m.read b := by
  induction ws generalizing m a with
  | nil => rfl
  | cons w ws ih =>
    have hfirst : b ≠ a := by simpa using h 0 (Nat.zero_lt_succ _)
    have hrest : ∀ i, i < ws.length → b ≠ a + 1 + BitVec.ofNat 16 i := fun i hi => by
      rw [← add_ofNat_succ]
      exact h (i + 1) (Nat.succ_lt_succ hi)
    calc ((m.write a w).loadWords (a + 1) ws).read b = (m.write a w).read b := ih hrest
      _ = m.read b := by rw [Memory.read_write, if_neg hfirst]

/-- A word that no later one goes to the cell of is what its cell reads. -/
theorem Memory.read_loadWords_of_last {ws : List Word} {m : Memory} {a : Word} {i : Nat}
    (h : i < ws.length) (hlast : ∀ j, i < j → j < ws.length → i % 65536 ≠ j % 65536) :
    (m.loadWords a ws).read (a + BitVec.ofNat 16 i) = ws[i] := by
  induction ws generalizing m a i with
  | nil => cases h
  | cons w ws ih =>
    cases i with
    | zero =>
      have hrest : ∀ j, j < ws.length → a + BitVec.ofNat 16 0 ≠ a + 1 + BitVec.ofNat 16 j :=
        fun j hj => by
          rw [← add_ofNat_succ, ne_eq, add_ofNat_inj]
          exact hlast (j + 1) (Nat.zero_lt_succ j) (Nat.succ_lt_succ hj)
      rw [Memory.loadWords, Memory.read_loadWords_of_ne hrest, Memory.read_write]
      exact if_pos (BitVec.add_zero a)
    | succ i =>
      rw [add_ofNat_succ]
      refine ih (Nat.lt_of_succ_lt_succ h) fun j hij hj heq => ?_
      exact hlast (j + 1) (Nat.succ_lt_succ hij) (Nat.succ_lt_succ hj) (by omega)

/-! ### The words of an image file (R237, R239) -/

theorem toNat_bigEndian (hi lo : Byte) : (bigEndian hi lo).toNat = hi.toNat * 256 + lo.toNat := by
  have happend : (bigEndian hi lo).toNat = hi.toNat <<< 8 ||| lo.toNat := BitVec.toNat_append hi lo
  rw [happend, ← Nat.shiftLeft_add_eq_or_of_lt lo.isLt, Nat.shiftLeft_eq]

theorem length_wordsOfBytes (bytes : List Byte) :
    (wordsOfBytes bytes).length = bytes.length / 2 := by
  induction bytes using wordsOfBytes.induct with
  | case1 hi lo rest ih =>
    rw [wordsOfBytes, List.length_cons, ih, List.length_cons, List.length_cons]
    omega
  | case2 => simp [wordsOfBytes]
  | case3 => rfl

theorem getElem_wordsOfBytes (bytes : List Byte) {i : Nat} (h : i < (wordsOfBytes bytes).length)
    (hlo : 2 * i + 1 < bytes.length) :
    (wordsOfBytes bytes)[i] = bigEndian bytes[2 * i] bytes[2 * i + 1] := by
  induction bytes using wordsOfBytes.induct generalizing i with
  | case1 hi lo rest ih =>
    cases i with
    | zero => rfl
    | succ i => exact ih (Nat.lt_of_succ_lt_succ h) (by simp only [List.length_cons] at hlo; omega)
  | case2 => cases h
  | case3 => cases h

/-! ### The load of image files and the boot (R232, R240, R241) -/

section
variable {f : Option (List Byte)} {files : List (Option (List Byte))} (m : Memory)

theorem Memory.loadFiles_cons_ok {im : Image} (h : parseImage f = .ok im) :
    m.loadFiles (f :: files) = (m.loadImage im).loadFiles files := by
  rw [Memory.loadFiles, h]

theorem Memory.loadFiles_cons_error {e : LoadError} (h : parseImage f = .error e) :
    m.loadFiles (f :: files) = (m, some e) := by
  rw [Memory.loadFiles, h]

end

/-- Files that all parse are loaded as their images, in order (R240). -/
theorem Memory.loadFiles_of_parsed {ims : List Image} {files : List (Option (List Byte))}
    (m : Memory) (h : files.map parseImage = ims.map Except.ok) :
    m.loadFiles files = (ims.foldl Memory.loadImage m, none) := by
  induction files generalizing ims m with
  | nil =>
    obtain rfl : ims = [] := List.map_eq_nil_iff.mp h.symm
    rfl
  | cons f files ih =>
    obtain ⟨im, ims, rfl, hf, hfiles⟩ := List.map_eq_cons_iff.mp h.symm
    rw [Memory.loadFiles_cons_ok m hf.symm, ih _ hfiles.symm]
    rfl

/-- The load of image files succeeds exactly when every file parses (R239, R241). -/
theorem Memory.loadFiles_succeeds_iff {files : List (Option (List Byte))} {m : Memory} :
    (m.loadFiles files).2 = none ↔ ∀ f ∈ files, ∃ im, parseImage f = .ok im := by
  induction files generalizing m with
  | nil => simp [Memory.loadFiles]
  | cons f files ih =>
    cases hf : parseImage f with
    | error e => simp [Memory.loadFiles_cons_error m hf, hf]
    | ok im => simp [Memory.loadFiles_cons_ok m hf, hf, ih]

/-- The state after the boot: that of an asserted reset with the loads' memory, the reset input left
asserted exactly when a load failed. -/
theorem State.boot_eq (files : List (Option (List Byte))) (consoleIn : List Byte) (s : State) :
    s.boot files consoleIn = { s.assertReset consoleIn with
      mem := (s.mem.loadFiles files).1, resetLine := (s.mem.loadFiles files).2.isSome } := by
  have hmem : (s.assertReset consoleIn).mem = s.mem := rfl
  rw [State.boot, hmem]
  rcases s.mem.loadFiles files with ⟨m, _ | e⟩ <;> rfl

/-- Reset is released exactly when every file parses (R232, R241). -/
theorem State.boot_released_iff {files : List (Option (List Byte))} {consoleIn : List Byte}
    {s : State} : (s.boot files consoleIn).resetLine = false ↔
      ∀ f ∈ files, ∃ im, parseImage f = .ok im := by
  rw [State.boot_eq, ← Memory.loadFiles_succeeds_iff (m := s.mem)]
  exact Option.isSome_eq_false_iff.trans Option.isNone_iff_eq_none

/-! ### The obligations -/

/-- Settles O53: no effect takes a character offered later, and a held step runs an input routine,
which then finds the one offered. -/
theorem laterInputNeverChangesAStep : Obligations.LaterInputNeverChangesAStep := by
  refine ⟨fun s t c h => ?_, fun s c h => ?_⟩
  · obtain ⟨hr, hrun, hexec⟩ := step_cases h
    obtain ⟨u, hu, rfl, hother⟩ := exec_effect hexec
    calc step (s.offerChar c)
        = exec (decode (s.readCell s.pc)) (s.advance.offerChar c) := step_running hr hrun
      _ = .next ((u s.advance).offerChar c) := by
        rw [hother _ (agreesFor_offerChar _ _ c), hu.offerChar_comm]
  · obtain ⟨hr, hrun, hexec⟩ := exec_held_of_step_held h
    obtain ⟨hin, echo, hroutine⟩ := inputRoutine_of_exec_held (decode_ne_trap _) hexec
    have hin' : (s.offerChar c).advance.conIn = c :: [] := congrArg (· ++ [c]) hin
    obtain ⟨t, ht, -, hx0, -⟩ := inputTrap_next (hroutine _) hin'
    exact ⟨t, (step_running (s := s.offerChar c) hr hrun).trans ht, hx0⟩

/-- Settles O54: the cell of a word that no later one overwrites, and the cells of no word. -/
theorem imageLoadIsOriginExact : Obligations.ImageLoadIsOriginExact :=
  fun _ _ => ⟨fun _ h hlast => Memory.read_loadWords_of_last h hlast,
    fun _ h => Memory.read_loadWords_of_ne h⟩

/-- Settles O55: the first two bytes are the origin, and each further pair is a word. -/
theorem imageFileIsBigEndianWholeWords : Obligations.ImageFileIsBigEndianWholeWords := by
  refine ⟨rfl, rfl, fun _ => rfl, fun b0 b1 rest =>
    ⟨{ origin := bigEndian b0 b1, words := wordsOfBytes rest }, rfl, toNat_bigEndian b0 b1,
      length_wordsOfBytes rest, fun i h hlo => ?_⟩⟩
  rw [getElem_wordsOfBytes rest h hlo, toNat_bigEndian]

/-- Settles O56: the loads' memory is the images' in order, and the state after the boot is that of
the asserted reset but for memory and the reset input. -/
theorem bootLoadsInOrderAndStartsOnlyOnSuccess :
    Obligations.BootLoadsInOrderAndStartsOnlyOnSuccess := by
  refine ⟨fun ims files m h => Memory.loadFiles_of_parsed m h, fun s files consoleIn => ?_⟩
  have hheld : (∃ f ∈ files, ∃ e, parseImage f = .error e) →
      NoNext (step (s.boot files consoleIn)) := by
    rintro ⟨f, hf, e, herror⟩
    refine noNext_step_of_resetLine (Bool.eq_true_of_not_eq_false fun hreleased => ?_)
    obtain ⟨im, hok⟩ := State.boot_released_iff.mp hreleased f hf
    rw [herror] at hok
    cases hok
  refine ⟨State.boot_released_iff, ?_⟩
  rw [State.boot_eq] at hheld ⊢
  exact ⟨rfl, rfl, rfl, fun _ _ => rfl, rfl, rfl, rfl, hheld⟩

/-- Settles O8: the fields of the asserted and the released reset, and the first step of a running
machine. -/
theorem resetWritesPcCondRunOnly : Obligations.ResetWritesPcCondRunOnly :=
  fun _ _ => ⟨noNext_step_of_resetLine rfl, rfl, rfl, rfl, fun _ _ => rfl, fun _ _ => rfl, rfl, rfl,
    step_running rfl rfl⟩

end Sys2Proof.Machine
end
